-- ==== Sys2Proof/Word.lean ====
section
/-! DEFINITION. The word types of CRCENG and the eight CRC widths. -/

namespace Sys2Proof

/-- One byte of a buffer, a name or a message. -/
abbrev Byte := BitVec 8

/-- The 64-bit datapath every register value, polynomial and table entry is carried on (R8). -/
abbrev Word := BitVec 64

/-- One command word (R91, R100). -/
abbrev Cmd := BitVec 32

/-- The set W of CRC widths (R7): a model's width is one of exactly these eight. -/
inductive Width
  | w8 | w16 | w24 | w32 | w40 | w48 | w56 | w64
  deriving DecidableEq, Repr

/-- The width as a number of bits. -/
def Width.bits : Width → Nat
  | .w8 => 8
  | .w16 => 16
  | .w24 => 24
  | .w32 => 32
  | .w40 => 40
  | .w48 => 48
  | .w56 => 56
  | .w64 => 64

end Sys2Proof
end

