-- ==== Sys2Proof/Config.lean ====
section
/-! DEFINITION. What an instance of CRCENG fixes (R9), the instance `State.reset` is of, and the free values of
R263 and R266. The parameters are held in State (log 1), so a statement over all states is one over all instances. -/

namespace Sys2Proof

/-- The eight parameters of a CRC model (R38, R201). A name is its bytes, its length part of it (R10). -/
structure Params where
  name   : List Byte
  width  : Width
  poly   : Word
  init   : Word
  refin  : Bool
  refout : Bool
  xorout : Word
  check  : Word
  deriving DecidableEq, Repr

/-- The build-time parameters of R9; N_CAT is the length of `catalog`. -/
structure HwConfig where
  nUser    : Nat
  nameMax  : Nat
  dbufSize : Nat
  base     : Nat
  catalog  : List Params
  deriving DecidableEq, Repr

namespace Config

/-- `CRC-8` of R203 (name bytes are ASCII, G2). -/
def crc8 : Params :=
  { name := [0x43, 0x52, 0x43, 0x2D, 0x38], width := .w8, poly := 0x07, init := 0x00,
    refin := false, refout := false, xorout := 0x00, check := 0xF4 }

/-- `CRC-16/ARC` of R203. -/
def crc16Arc : Params :=
  { name := [0x43, 0x52, 0x43, 0x2D, 0x31, 0x36, 0x2F, 0x41, 0x52, 0x43], width := .w16, poly := 0x8005,
    init := 0x0000, refin := true, refout := true, xorout := 0x0000, check := 0xBB3D }

/-- `CRC-16/IBM-3740` of R203. -/
def crc16Ibm3740 : Params :=
  { name := [0x43, 0x52, 0x43, 0x2D, 0x31, 0x36, 0x2F, 0x49, 0x42, 0x4D, 0x2D, 0x33, 0x37, 0x34, 0x30],
    width := .w16, poly := 0x1021, init := 0xFFFF, refin := false, refout := false, xorout := 0x0000,
    check := 0x29B1 }

/-- `CRC-16/CCITT-FALSE` of R203: an alias, a separate entry with the same parameters (R202). -/
def crc16CcittFalse : Params :=
  { crc16Ibm3740 with
    name := [0x43, 0x52, 0x43, 0x2D, 0x31, 0x36, 0x2F, 0x43, 0x43, 0x49, 0x54, 0x54, 0x2D, 0x46, 0x41, 0x4C, 0x53,
      0x45] }

/-- `CRC-32` of R203. -/
def crc32 : Params :=
  { name := [0x43, 0x52, 0x43, 0x2D, 0x33, 0x32], width := .w32, poly := 0x04C11DB7, init := 0xFFFFFFFF,
    refin := true, refout := true, xorout := 0xFFFFFFFF, check := 0xCBF43926 }

/-- `CRC-64/XZ` of R203. -/
def crc64Xz : Params :=
  { name := [0x43, 0x52, 0x43, 0x2D, 0x36, 0x34, 0x2F, 0x58, 0x5A], width := .w64, poly := 0x42F0E1EBA9EA3693,
    init := 0xFFFFFFFFFFFFFFFF, refin := true, refout := true, xorout := 0xFFFFFFFFFFFFFFFF,
    check := 0x995DC9BBDF1939FA }

/-- The six entries every catalog contains (R203). -/
def requiredEntries : List Params :=
  [crc8, crc16Arc, crc16Ibm3740, crc16CcittFalse, crc32, crc64Xz]

/-- The instance `State.reset` is of: the spec's defaults of R9, the example catalog of 95_test_vectors.md and a BASE
of 0. DESIGN CHOICE (log 1, log 2, log 3), unsafe: CATALOG, its order and BASE are OPEN parameters. -/
def exampleInstance : HwConfig :=
  { nUser := 16, nameMax := 32, dbufSize := 4096, base := 0, catalog := requiredEntries }

/-- FREE VALUE (log 8): what the NBUF or DBUF byte at a window offset holds while nothing has written it since
reset (R263, U4), by the number of the reset and the offset. -/
opaque unwrittenByte : Nat → Nat → Byte

/-- FREE VALUE (log 9): what a command sees in a buffer byte the HOST wrote while the command was pending (R266,
U5), by the number of the acceptance and the offset. -/
opaque racedByte : Nat → Nat → Byte

end Config

end Sys2Proof
end

