-- ==== Sys2Proof/Syntax.lean ====
section
/-! DEFINITION. The eleven commands of R90, one constructor a row of spec/opcode_table.json, with the fields each
takes (R92). `h` is the handle field H, `i` TBLRD's index, `sel` PARAMRD's selector. -/

namespace Sys2Proof

inductive Instr
  | cfg (h : BitVec 8)
  | release (h : BitVec 8)
  | init (h : BitVec 8)
  | update (h : BitVec 8)
  | final (h : BitVec 8)
  | lookupPre
  | lookupList
  | check (h : BitVec 8)
  | tblrd (h : BitVec 8) (i : BitVec 8)
  | paramrd (h : BitVec 8) (sel : BitVec 8)
  | build
  deriving DecidableEq, Repr

end Sys2Proof
end

