-- ==== Sys2Proof/WellFormed.lean ====
section
/-! DEFINITION. Which terms of `Instr` are legal commands. Every handle value and every table index is legal as an
encoding (R97); only PARAMRD's selector is restricted. -/

namespace Sys2Proof

/-- The PARAMRD selectors R99 assigns: 0x00..0x06 and 0x80..0xFF. -/
def selectorLegal (sel : BitVec 8) : Bool :=
  sel.toNat ≤ 0x06 || 0x80 ≤ sel.toNat

/-- A legal command (R93, R98): a PARAMRD has an assigned selector; nothing else can be wrong in a term. -/
def Instr.wf : Instr → Bool
  | .paramrd _ sel => selectorLegal sel
  | .cfg _ | .release _ | .init _ | .update _ | .final _ | .check _ | .tblrd _ _ => true
  | .lookupPre | .lookupList | .build => true

end Sys2Proof
end

