-- ==== Sys2Proof/Decode.lean ====
section
/-! DEFINITION. The decoder of R96, total on every 32-bit word and rejecting by name, and the encoder of R91 and
R101 after it. Every rejection ends the command with ILLEGAL_COMMAND (R93, R98). -/

namespace Sys2Proof

/-- Why a word is illegal, in the order of R96's checks. -/
inductive DecodeError
  | unassignedOpcode
  | reservedNotZero
  | unusedHandle
  | unusedImmediate
  | unassignedSelector
  deriving DecidableEq, Repr

/-- Field OPC, bits 7:0 (R91). -/
def Cmd.opc (c : Cmd) : BitVec 8 := c.extractLsb' 0 8

/-- Field H, bits 15:8 (R91). -/
def Cmd.h (c : Cmd) : BitVec 8 := c.extractLsb' 8 8

/-- Field IMM8, bits 23:16 (R91). -/
def Cmd.imm (c : Cmd) : BitVec 8 := c.extractLsb' 16 8

/-- Field RSV, bits 31:24 (R91). -/
def Cmd.rsv (c : Cmd) : BitVec 8 := c.extractLsb' 24 8

/-- `uses_H(opc)` of R96. -/
def usesH (opc : BitVec 8) : Bool :=
  opc == 0x01 || opc == 0x02 || opc == 0x03 || opc == 0x04 || opc == 0x05 || opc == 0x08 || opc == 0x09 ||
    opc == 0x0A

/-- `uses_IMM(opc)` of R96. -/
def usesImm (opc : BitVec 8) : Bool :=
  opc == 0x09 || opc == 0x0A

/-- The opcodes of R90 with the fields of R92; `none` for the unassigned ones (R98). -/
def instrOf (opc h imm : BitVec 8) : Option Instr :=
  if opc = 0x01 then some (.cfg h)
  else if opc = 0x02 then some (.release h)
  else if opc = 0x03 then some (.init h)
  else if opc = 0x04 then some (.update h)
  else if opc = 0x05 then some (.final h)
  else if opc = 0x06 then some .lookupPre
  else if opc = 0x07 then some .lookupList
  else if opc = 0x08 then some (.check h)
  else if opc = 0x09 then some (.tblrd h imm)
  else if opc = 0x0A then some (.paramrd h imm)
  else if opc = 0x0B then some .build
  else none

/-- The five legality checks of R96, in its order. -/
def decode (c : Cmd) : Except DecodeError Instr :=
  match instrOf (Cmd.opc c) (Cmd.h c) (Cmd.imm c) with
  | none => .error .unassignedOpcode
  | some i =>
    if Cmd.rsv c ≠ 0 then .error .reservedNotZero
    else if usesH (Cmd.opc c) = false ∧ Cmd.h c ≠ 0 then .error .unusedHandle
    else if usesImm (Cmd.opc c) = false ∧ Cmd.imm c ≠ 0 then .error .unusedImmediate
    else if i.wf = false then .error .unassignedSelector
    else .ok i

/-- The opcode number of R90. -/
def Instr.opcode : Instr → BitVec 8
  | .cfg _ => 0x01
  | .release _ => 0x02
  | .init _ => 0x03
  | .update _ => 0x04
  | .final _ => 0x05
  | .lookupPre => 0x06
  | .lookupList => 0x07
  | .check _ => 0x08
  | .tblrd _ _ => 0x09
  | .paramrd _ _ => 0x0A
  | .build => 0x0B

/-- The H field of a command; 0 where R92 gives it none. -/
def Instr.handle : Instr → BitVec 8
  | .cfg h | .release h | .init h | .update h | .final h | .check h | .tblrd h _ | .paramrd h _ => h
  | .lookupPre | .lookupList | .build => 0

/-- The IMM8 field of a command; 0 where R92 gives it none. -/
def Instr.immediate : Instr → BitVec 8
  | .tblrd _ i => i
  | .paramrd _ sel => sel
  | .cfg _ | .release _ | .init _ | .update _ | .final _ | .check _ => 0
  | .lookupPre | .lookupList | .build => 0

/-- R101: a command's encoding is `(imm << 16) | (h << 8) | opc`. -/
def encode (i : Instr) : Cmd :=
  (i.immediate.setWidth 32 <<< 16) ||| (i.handle.setWidth 32 <<< 8) ||| i.opcode.setWidth 32

/-- The handle `u<k>` of R101: user slot k. -/
def userHandle (k : BitVec 6) : BitVec 8 := k.setWidth 8

/-- The handle `c<i>` of R101: catalog entry i, 0x80 + i. -/
def catalogHandle (i : BitVec 7) : BitVec 8 := 0x80 ||| i.setWidth 8

/-- The instruction of an opcode-table word: the low `nbits` bits of `w`, the bits above them 0. A command is one
32-bit word (R100), so it is given to the decoder whole. -/
def decodeTableWord (nbits w : Nat) : Option Instr :=
  match decode (BitVec.ofNat 32 (w % 2 ^ nbits)) with
  | .ok i => some i
  | .error _ => none

end Sys2Proof
end

