-- ==== Sys2Proof/Machine/State.lean ====
section
/-! DEFINITION. The state of CRCENG (R20) as plain data, the reasons a step can stop, and the state after reset
(R260). -/

namespace Sys2Proof.Machine

open Sys2Proof

/-- A lookup table: 256 entries, one a byte value (R40). -/
abbrev Table := Vector Word 256

/-- A constructed model: its parameters, POLY masked, and its table (R38). NAME_LEN is the length of `name` (R10,
log 16); the update variant is not stored (R41). -/
structure Model extends Params where
  table : Table
  deriving DecidableEq, Repr

/-- The registry: REGSTATE (R27), and the catalog TABLEs, which exist from the build on (R39, R209, log 7). -/
inductive Registry
  | uninitialized
  | building
  | ready (tables : List Table)
  deriving DecidableEq, Repr

/-- The status codes of R231. -/
inductive Code
  | ok
  | illegalCommand
  | badHandle
  | notReady
  | slotEmpty
  | slotInUse
  | nameRange
  | invalidParameter
  | dataRange
  | regRange
  | checkMismatch
  deriving DecidableEq, Repr

/-- The storage of the argument registers (R21): only their writable bits (R31, R32, R34, R35), the others read 0. -/
structure ArgRegs where
  regIn     : Word
  argCfg    : BitVec 11
  argPoly   : Word
  argInit   : Word
  argXorout : Word
  argCheck  : Word
  dataAddr  : BitVec 32
  dataLen   : BitVec 32
  nameLen   : BitVec 8
  slotMask  : Word
  deriving DecidableEq, Repr

/-- PEND: the accepted command word and the latched argument registers L.* (R36). It means something while BUSY = 1. -/
structure Pending where
  cmd  : Cmd
  args : ArgRegs
  deriving DecidableEq, Repr

/-- One step of the outside world, or the ENGINE's turn (log 4). `addr` is a bus address, `size` a number of bytes; a
write's bytes are the low ones of `value` (R66). -/
inductive Event
  | write (addr size : Nat) (value : Word)
  | read (addr size : Nat)
  | reset
  | engine
  deriving DecidableEq, Repr

/-- What the HOST got back from its last access (log 13): nothing yet, a normal response to a write, the value of a
read, or a bus error (R64, R65). -/
inductive BusResponse
  | idle
  | done
  | data (v : Word)
  | error
  deriving DecidableEq, Repr

/-- What stops the machine. CRCENG has no trap (R236) and no command faults. -/
inductive Fault
  /-- Raised by a HOST access at a bus address outside the window, which CRCENG does not decode (R61): what answers
  there is the platform's. Safe: nothing is proved of such an access (log 11). -/
  | outsideWindow (addr : Nat)
  deriving DecidableEq, Repr

/-- Why an instruction has no meaning. -/
inductive Refusal
  /-- Raised by an arm of `exec` for a command not modelled yet; no arm raises it now. Safe. -/
  | notModelled (mnemonic : String)
  deriving DecidableEq, Repr

/-- The state of CRCENG (R20). `hw` is the instance and never changes. BUSY is `busy`; S[k].VALID = 1 exactly when
`slots[k]` holds a model, for k < N_USER (log 6, log 24). The last five fields are the model's own (log 4, log 9,
log 10, log 13). -/
structure State where
  hw       : HwConfig
  busy     : Bool
  overrun  : Bool
  registry : Registry
  err      : Code
  result   : Word
  args     : ArgRegs
  pend     : Pending
  slots    : Vector (Option Model) 64
  mem      : List Host.Cell
  raced    : List Nat
  draw     : Nat
  epoch    : Nat
  inputs   : List Event
  resp     : BusResponse
  deriving DecidableEq, Repr

/-- Every argument register 0 (R260). -/
def ArgRegs.zero : ArgRegs :=
  { regIn := 0, argCfg := 0, argPoly := 0, argInit := 0, argXorout := 0, argCheck := 0, dataAddr := 0, dataLen := 0,
    nameLen := 0, slotMask := 0 }

/-- The state RESET leaves on an instance (R260): registers 0, PEND empty (BUSY = 0; the latch's stale contents are a
DESIGN CHOICE, log 5), every slot empty, no table built, no buffer byte written. -/
def State.resetOf (hw : HwConfig) : State :=
  { hw := hw, busy := false, overrun := false, registry := .uninitialized, err := .ok, result := 0,
    args := ArgRegs.zero, pend := { cmd := 0, args := ArgRegs.zero }, slots := Vector.replicate 64 none, mem := [],
    raced := [], draw := 0, epoch := 0, inputs := [], resp := .idle }

/-- The machine right after reset: the instance of log 1, log 2 and log 3, in the state of R260. -/
def State.reset : State := State.resetOf Config.exampleInstance

end Sys2Proof.Machine
end

