-- ==== Sys2Proof/Machine/Bits.lean ====
section
/-! DEFINITION. The bit utilities: width masks (R14, R123), the in-range test (R17), bit reversal (R120, R121) and the
byte lanes of the bus (R66). -/

namespace Sys2Proof.Machine

open Sys2Proof

/-- `mask_w` (R14): the low w bits set. -/
def mask (w : Width) : Word := BitVec.ofNat 64 (2 ^ w.bits - 1)

/-- `r` is in range for width w (R17): no bit at or above w is set. -/
def inRange (w : Width) (r : Word) : Bool := r &&& ~~~ mask w == 0

/-- Bit `i` of `v` set to `b`. -/
def setBit (v : Word) (i : Nat) (b : Bool) : Word :=
  if b then v ||| (1#64 <<< i) else v &&& ~~~(1#64 <<< i)

/-- One swap of R120's loop: bits i and w-1-i of `r` take bits w-1-i and i of `v`. -/
def revSwap (w : Width) (v r : Word) (i : Nat) : Word :=
  setBit (setBit r i (v.getLsbD (w.bits - 1 - i))) (w.bits - 1 - i) (v.getLsbD i)

/-- `rev_w(v)` (R120): the low w bits reversed, the bits above passed through (R121). -/
def rev (w : Width) (v : Word) : Word :=
  (List.range (w.bits / 2)).foldl (revSwap w v) v

/-- The width a number names, when it is in W (R7, R131). -/
def widthOf (n : BitVec 8) : Option Width :=
  match n.toNat with
  | 8 => some .w8
  | 16 => some .w16
  | 24 => some .w24
  | 32 => some .w32
  | 40 => some .w40
  | 48 => some .w48
  | 56 => some .w56
  | 64 => some .w64
  | _ => none

/-- Byte `j` of a value on the bus: bits 8j+7:8j (R66). -/
def byteLane (v : Word) (j : Nat) : Byte := v.extractLsb' (8 * j) 8

/-- The value whose bits 8j+7:8j are the `j`-th byte, zeros above (R66). -/
def ofBytes : List Byte → Word
  | [] => 0
  | b :: bs => b.setWidth 64 ||| (ofBytes bs <<< 8)

end Sys2Proof.Machine
end

