-- ==== Sys2Proof/Machine/Generator.lean ====
section
/-! DEFINITION. The table generator of R125. -/

namespace Sys2Proof.Machine

open Sys2Proof

/-- One round of step 3 of R125: polynomial division by one bit on the 64-bit working register. -/
def divRound (w : Width) (p e : Word) : Word :=
  if e.getLsbD (w.bits - 1) then (e <<< 1) ^^^ p else e <<< 1

/-- `n` rounds. -/
def divRounds (w : Width) (p : Word) : Nat → Word → Word
  | 0, e => e
  | n + 1, e => divRounds w p n (divRound w p e)

/-- Steps 1 and 2 of R125: the index, reversed when REFIN = 1, else aligned to the top of the register. -/
def alignIndex (w : Width) (refin : Bool) (idx : Word) : Word :=
  if refin then rev w idx else if 8 < w.bits then idx <<< (w.bits - 8) else idx

/-- Steps 1 to 5 of R125 for one index. -/
def tableEntry (w : Width) (poly : Word) (refin : Bool) (idx : Word) : Word :=
  let e := divRounds w (poly &&& mask w) 8 (alignIndex w refin idx)
  (if refin then rev w e else e) &&& mask w

/-- `build_table(w, poly, refin)` (R125): the 256 entries in index order. -/
def buildTable (w : Width) (poly : Word) (refin : Bool) : Table :=
  ⟨((List.range 256).map fun idx => tableEntry w poly refin (BitVec.ofNat 64 idx)).toArray, by simp⟩

/-- The entry of a table at a byte (R40). -/
def Table.entry (t : Table) (i : BitVec 8) : Word := t[i.toNat]'(i.isLt)

/-- The model of a parameter set: POLY masked, INIT, XOROUT and CHECK as given, the table built (R38, R128, R130). -/
def construct (p : Params) : Model :=
  { p with poly := p.poly &&& mask p.width, table := buildTable p.width p.poly p.refin }

/-- Catalog entry C[i] (R39): the constants of its tuple, POLY masked, with its stored TABLE. -/
def catalogModel (p : Params) (t : Table) : Model :=
  { p with poly := p.poly &&& mask p.width, table := t }

/-- The tables registry_build writes, in catalog order (R209). -/
def catalogTables (catalog : List Params) : List Table :=
  catalog.map fun p => buildTable p.width p.poly p.refin

end Sys2Proof.Machine
end

