-- ==== Sys2Proof/Machine/Crc.lean ====
section
/-! DEFINITION. The update engine: the two update steps (R160, R161), the update over a byte list (R163), the initial
register (R166), finalisation (R172) and the self-check (R178). -/

namespace Sys2Proof.Machine

open Sys2Proof

/-- `step_N` (R160). For an in-range register the index is below 256 (R164); the truncation to a byte only makes the
function total (log 18). -/
def stepNormal (m : Model) (r : Word) (b : Byte) : Word :=
  ((r <<< 8) ^^^ Table.entry m.table (((r >>> (m.width.bits - 8)) ^^^ b.setWidth 64).setWidth 8)) &&& mask m.width

/-- `step_R` (R161). -/
def stepReflected (m : Model) (r : Word) (b : Byte) : Word :=
  ((r >>> 8) ^^^ Table.entry m.table ((r ^^^ b.setWidth 64).setWidth 8)) &&& mask m.width

/-- The variant REFIN selects (R162). -/
def updateByte (m : Model) (r : Word) (b : Byte) : Word :=
  if m.refin then stepReflected m r b else stepNormal m r b

/-- `update(m, r, bytes)` (R163). -/
def updateBytes (m : Model) (r : Word) (bytes : List Byte) : Word :=
  bytes.foldl (updateByte m) r

/-- `init_reg(m)` (R166). -/
def initReg (m : Model) : Word :=
  if m.refin then rev m.width m.init else m.init

/-- `final(m, r)` (R172). -/
def finalReg (m : Model) (r : Word) : Word :=
  ((if m.refin ^^ m.refout then rev m.width r else r) ^^^ m.xorout) &&& mask m.width

/-- The check string "123456789" (R17, R178). -/
def checkString : List Byte := [0x31, 0x32, 0x33, 0x34, 0x35, 0x36, 0x37, 0x38, 0x39]

/-- `selfcheck(m)` (R178); `none` when init_reg is out of range, which raises REG_RANGE. -/
def selfCheck (m : Model) : Option Word :=
  if inRange m.width (initReg m) then some (finalReg m (updateBytes m (initReg m) checkString)) else none

end Sys2Proof.Machine
end

