-- ==== Sys2Proof/Machine/Ops.lean ====
section
/-! DEFINITION. The named operations over buffers, slots, the registry and the command latch: acceptance (R36), the
registry build (R209), `finish` and `raise` (R13) and RESET (R260). `finish` and `raise` stand where another machine
takes an exception: CRCENG has no trap and no return from one (R230, R236). -/

namespace Sys2Proof.Machine

open Sys2Proof

/-- The three outcomes of a step of this machine. -/
abbrev Outcome := Host.Outcome State Fault Refusal

/-! ### Buffer memory: the written bytes, by window offset, strictly rising -/

/-- The byte listed at an address; `none` when nothing has written it. -/
def Memory.read : List Host.Cell → Nat → Option Byte
  | [], _ => none
  | c :: m, a => if c.1 = a then some c.2 else Memory.read m a

/-- The memory with a byte written, its form kept. -/
def Memory.write : List Host.Cell → Nat → Byte → List Host.Cell
  | [], a, b => [(a, b)]
  | c :: m, a, b =>
    if a < c.1 then (a, b) :: c :: m
    else if a = c.1 then (a, b) :: m
    else c :: Memory.write m a b

/-- The addresses are strictly rising, all above `lo` where one is given. -/
def Memory.rising : Option Nat → List Host.Cell → Bool
  | _, [] => true
  | lo, c :: m => (match lo with | none => true | some l => decide (l < c.1)) && Memory.rising (some c.1) m

/-- The canonical form: addresses strictly rising. An unlisted byte reads as no byte at all, so no entry can equal
it. -/
def Memory.wf (m : List Host.Cell) : Bool := Memory.rising none m

/-- The window offset of `NBUF[j]` (R61). -/
def nbufOffset (j : Nat) : Nat := 0x100 + j

/-- The window offset of `DBUF[j]` (R61). -/
def dbufOffset (j : Nat) : Nat := 0x1000 + j

/-- The offset is a byte of NBUF or DBUF (R61). -/
def inBuffer (hw : HwConfig) (off : Nat) : Bool :=
  (0x100 ≤ off && off < 0x100 + hw.nameMax) || (0x1000 ≤ off && off < 0x1000 + hw.dbufSize)

/-- The buffer byte at an offset: the byte last written, a free value while none was (R263, log 8). -/
def bufferByte (s : State) (off : Nat) : Byte :=
  (Memory.read s.mem off).getD (Config.unwrittenByte s.epoch off)

/-- The buffer byte as the pending command sees it: a free value when the HOST wrote it since the acceptance (R266,
log 9). -/
def commandByte (s : State) (off : Nat) : Byte :=
  if s.raced.contains off then Config.racedByte s.draw off else bufferByte s off

/-- `a` put into a strictly rising list. -/
def insertRising (a : Nat) : List Nat → List Nat
  | [] => [a]
  | x :: xs => if a < x then a :: x :: xs else if a = x then x :: xs else x :: insertRising a xs

/-- A HOST write of one buffer byte; while a command is pending the byte counts as written under it (R266). -/
def writeBufferByte (off : Nat) (b : Byte) (s : State) : State :=
  { s with
    mem := Memory.write s.mem off b
    raced := if s.busy then insertRising off s.raced else s.raced }

/-! ### User slots and catalog tables -/

/-- What user slot S[k] holds; `none` when VALID = 0 (R38). -/
def slotAt (s : State) (k : BitVec 6) : Option Model := s.slots[k.toNat]'(k.isLt)

/-- S[k] <- m with VALID 1, or VALID <- 0. -/
def setSlot (k : BitVec 6) (v : Option Model) (s : State) : State :=
  { s with slots := s.slots.set k.toNat v k.isLt }

/-- The TABLE of C[i], which exists only when REGSTATE = READY (R39). -/
def catalogTableAt (r : Registry) (i : Nat) : Option Table :=
  match r with
  | .ready tables => tables[i]?
  | .uninitialized | .building => none

/-! ### The two steps of a command -/

/-- `triggers_build(c)` (R208). -/
def triggersBuild (c : Cmd) : Bool := c == 0x00000006 || c == 0x0000000B

/-- REGSTATE at the acceptance of `c` (R36, R208). -/
def registryAtAcceptance (c : Cmd) (r : Registry) : Registry :=
  match r with
  | .uninitialized => if triggersBuild c then .building else .uninitialized
  | .building => .building
  | .ready tables => .ready tables

/-- Acceptance (R36). No byte has yet been written under the new command, and its free values are new ones. -/
def accept (c : Cmd) (s : State) : State :=
  { s with
    pend := { cmd := c, args := s.args }
    busy := true
    registry := registryAtAcceptance c s.registry
    raced := []
    draw := s.draw + 1 }

/-- The registry build of R209, which runs at completion when REGSTATE = BUILDING (R96), before the command's own
effect. -/
def buildIfDue (s : State) : State :=
  match s.registry with
  | .building => { s with registry := .ready (catalogTables s.hw.catalog) }
  | .uninitialized | .ready _ => s

/-- `finish(code)` (R13): STATUS.ERR written, BUSY cleared. -/
def finish (code : Code) (s : State) : Outcome :=
  .next { s with err := code, busy := false }

/-- `CSR.RESULT <- v; finish(code)`. -/
def finishWith (v : Word) (code : Code) (s : State) : Outcome :=
  finish code { s with result := v }

/-- `raise E` (R13): `finish(E)` with nothing else changed (R234). -/
def raise (code : Code) (s : State) : Outcome := finish code s

/-- RESET (R260, R261): the reset state of the instance. The model's own counters go on (log 10) and the HOST's later
accesses stay. -/
def assertReset (s : State) : State :=
  { State.resetOf s.hw with epoch := s.epoch + 1, draw := s.draw, inputs := s.inputs }

end Sys2Proof.Machine
end

