-- ==== Sys2Proof/Machine/Flags.lean ====
section
/-! DEFINITION. The flags of CRCENG (R45): the numbers of REGSTATE and ERR, the STATUS word (R24) and HWCFG (R33). -/

namespace Sys2Proof.Machine

open Sys2Proof

/-- The number of a status code (R231). -/
def codeNumber : Code → BitVec 4
  | .ok => 0x0
  | .illegalCommand => 0x1
  | .badHandle => 0x2
  | .notReady => 0x3
  | .slotEmpty => 0x4
  | .slotInUse => 0x5
  | .nameRange => 0x6
  | .invalidParameter => 0x7
  | .dataRange => 0x8
  | .regRange => 0x9
  | .checkMismatch => 0xA

/-- The number of REGSTATE (R27). -/
def regstate : Registry → BitVec 2
  | .uninitialized => 0b00
  | .building => 0b01
  | .ready _ => 0b10

/-- The STATUS register as read (R24): BUSY, OVERRUN, REGSTATE, ERR; the reserved bits read 0. -/
def statusWord (s : State) : Word :=
  (BitVec.ofBool s.busy).setWidth 64 ||| ((BitVec.ofBool s.overrun).setWidth 64 <<< 1) |||
    ((regstate s.registry).setWidth 64 <<< 2) ||| ((codeNumber s.err).setWidth 64 <<< 8)

/-- The HWCFG register (R33): N_USER, N_CAT, NAME_MAX, DBUF_SIZE. -/
def hwcfgWord (hw : HwConfig) : Word :=
  (BitVec.ofNat 8 hw.nUser).setWidth 64 ||| ((BitVec.ofNat 8 hw.catalog.length).setWidth 64 <<< 8) |||
    ((BitVec.ofNat 8 hw.nameMax).setWidth 64 <<< 16) ||| ((BitVec.ofNat 32 hw.dbufSize).setWidth 64 <<< 32)

end Sys2Proof.Machine
end

