-- ==== Sys2Proof/Machine/Operands.lean ====
section
/-! DEFINITION. Every operand form: model handles (R94, R95), the fields of the latched argument registers (R32, R35,
R99), the query name (R207, R212) and UPDATE's bytes (R68, R69). -/

namespace Sys2Proof.Machine

open Sys2Proof

/-- H[7]: the handle names a catalog entry (R94). -/
def handleIsCatalog (h : BitVec 8) : Bool := h.getLsbD 7

/-- H[6]: with H[7] = 0 the handle names nothing (R94). -/
def handleIsVoid (h : BitVec 8) : Bool := h.getLsbD 6

/-- H[6:0]: the index of a catalog handle (R94). -/
def handleEntry (h : BitVec 8) : BitVec 7 := h.extractLsb' 0 7

/-- H[5:0]: the slot of a user handle (R94). -/
def handleSlot (h : BitVec 8) : BitVec 6 := h.extractLsb' 0 6

/-- The user slot a handle names (R94), with the BAD_HANDLE checks of R95 for CFG and RELEASE: a catalog handle, one of
0x40..0x7F and one past N_USER name no user slot. -/
def userSlot (hw : HwConfig) (h : BitVec 8) : Except Code (BitVec 6) :=
  if handleIsCatalog h then .error .badHandle
  else if handleIsVoid h then .error .badHandle
  else if (handleSlot h).toNat < hw.nUser then .ok (handleSlot h)
  else .error .badHandle

/-- The valid model a handle names, or the code R95 ends the command with: `check_handle` and `model(H)` for the six
commands that read a model. A catalog entry without a built TABLE is not ready (log 17). -/
def namedModel (h : BitVec 8) (s : State) : Except Code Model :=
  if handleIsCatalog h then
    match s.hw.catalog[(handleEntry h).toNat]? with
    | none => .error .badHandle
    | some p =>
      match catalogTableAt s.registry (handleEntry h).toNat with
      | none => .error .notReady
      | some t => .ok (catalogModel p t)
  else
    match userSlot s.hw h with
    | .error c => .error c
    | .ok k =>
      match slotAt s k with
      | none => .error .slotEmpty
      | some m => .ok m

/-- The registry build when due, the handle check, then the command's rule on the model (R96). -/
def withModel (h : BitVec 8) (s : State) (body : Model → State → Outcome) : Outcome :=
  match namedModel h (buildIfDue s) with
  | .error c => raise c (buildIfDue s)
  | .ok m => body m (buildIfDue s)

/-- L.ARG_CFG.WIDTH (R32). -/
def cfgWidth (a : ArgRegs) : Option Width := widthOf (a.argCfg.extractLsb' 0 8)

/-- L.ARG_CFG.REFIN (R32). -/
def cfgRefin (a : ArgRegs) : Bool := a.argCfg.getLsbD 8

/-- L.ARG_CFG.REFOUT (R32). -/
def cfgRefout (a : ArgRegs) : Bool := a.argCfg.getLsbD 9

/-- L.ARG_CFG.VERIFY (R32). -/
def cfgVerify (a : ArgRegs) : Bool := a.argCfg.getLsbD 10

/-- `MemRead(NBUF, 0, L.NAME_LEN)` as the pending command sees it (R63, R266). -/
def nameOperand (s : State) : List Byte :=
  (List.range s.pend.args.nameLen.toNat).map fun j => commandByte s (nbufOffset j)

/-- `MemRead(DBUF, L.DATA_ADDR, L.DATA_LEN)` as the pending command sees it (R68, R266). -/
def dataOperand (s : State) : List Byte :=
  (List.range s.pend.args.dataLen.toNat).map fun j => commandByte s (dbufOffset (s.pend.args.dataAddr.toNat + j))

/-- The parameters CFG gathers from the latched registers and NBUF (R130). -/
def cfgParams (w : Width) (s : State) : Params :=
  { name := nameOperand s, width := w, poly := s.pend.args.argPoly, init := s.pend.args.argInit,
    refin := cfgRefin s.pend.args, refout := cfgRefout s.pend.args, xorout := s.pend.args.argXorout,
    check := s.pend.args.argCheck }

/-- PARAMRD's selector map (R99, R138): name bytes at and past NAME_LEN read 0. -/
def paramField (m : Model) (sel : BitVec 8) : Word :=
  match sel.toNat with
  | 0x00 => BitVec.ofNat 64 m.width.bits
  | 0x01 => m.poly
  | 0x02 => m.init
  | 0x03 => (BitVec.ofBool m.refin).setWidth 64 ||| ((BitVec.ofBool m.refout).setWidth 64 <<< 1)
  | 0x04 => m.xorout
  | 0x05 => m.check
  | 0x06 => BitVec.ofNat 64 m.name.length
  | n => ((m.name[n - 0x80]?).getD 0).setWidth 64

/-- The catalog index a name matches, lowest first (R207, R212). -/
def catalogMatch (catalog : List Params) (q : List Byte) : Option Nat :=
  catalog.findIdx? fun p => p.name == q

/-- User slot `k` is in the list SLOT_MASK selects, valid and named `q` (R215). -/
def slotMatches (s : State) (q : List Byte) (k : Nat) : Bool :=
  s.pend.args.slotMask.getLsbD k &&
    match s.slots[k]? with
    | some (some m) => m.name == q
    | some none | none => false

/-- The lowest slot below N_USER that matches (R215, R216). -/
def slotMatch (s : State) (q : List Byte) : Option Nat :=
  (List.range s.hw.nUser).find? (slotMatches s q)

/-- The lookup result of a handle (R213): bit 8 set above the handle. -/
def foundResult (h : Nat) : Word := 0x100 ||| BitVec.ofNat 64 h

end Sys2Proof.Machine
end

