-- ==== Sys2Proof/Machine/Bus.lean ====
section
/-! DEFINITION. The HOST's side: the register map (R23), register reads and writes (R24, R29 to R35, R43, R44), buffer
accesses (R64 to R66) and the decoding of the window (R61). -/

namespace Sys2Proof.Machine

open Sys2Proof

/-- The registers of R23. -/
inductive Reg
  | status | cmd | result | regIn | argCfg | argPoly | argInit | argXorout | argCheck | dataAddr | dataLen | nameLen
  | slotMask | hwcfg
  deriving DecidableEq, Repr

/-- The register whose 64 bits stand at an offset that is a multiple of 8 (R23); `none` is reserved (R43). CMD's upper
half, 0x000C, is reserved. -/
def regAt (off : Nat) : Option Reg :=
  match off with
  | 0x00 => some .status
  | 0x08 => some .cmd
  | 0x10 => some .result
  | 0x18 => some .regIn
  | 0x20 => some .argCfg
  | 0x28 => some .argPoly
  | 0x30 => some .argInit
  | 0x38 => some .argXorout
  | 0x40 => some .argCheck
  | 0x48 => some .dataAddr
  | 0x50 => some .dataLen
  | 0x58 => some .nameLen
  | 0x60 => some .slotMask
  | 0x68 => some .hwcfg
  | _ => none

/-- What a register reads as; CMD reads 0 (R29), unimplemented bits read 0 (R43). -/
def readReg (r : Reg) (s : State) : Word :=
  match r with
  | .status => statusWord s
  | .cmd => 0
  | .result => s.result
  | .regIn => s.args.regIn
  | .argCfg => s.args.argCfg.setWidth 64
  | .argPoly => s.args.argPoly
  | .argInit => s.args.argInit
  | .argXorout => s.args.argXorout
  | .argCheck => s.args.argCheck
  | .dataAddr => s.args.dataAddr.setWidth 64
  | .dataLen => s.args.dataLen.setWidth 64
  | .nameLen => s.args.nameLen.setWidth 64
  | .slotMask => s.args.slotMask
  | .hwcfg => hwcfgWord s.hw

/-- The command port (R29): accepted when BUSY = 0 (R36), else dropped with OVERRUN set (R26, R265). -/
def writeCmd (c : Cmd) (s : State) : State :=
  if s.busy then { s with overrun := true } else accept c s

/-- The old value with the enabled bits replaced. -/
def mergeBits (old enable v : Word) : Word := (old &&& ~~~ enable) ||| (v &&& enable)

/-- A HOST write to the enabled bits of a register. STATUS: only OVERRUN, write one to clear (R24). CMD: a write that
covers bits 31:0 presents a command word. RESULT and HWCFG ignore writes (R44); the bits an argument register does not
implement are dropped (R43). -/
def writeReg (r : Reg) (enable v : Word) (s : State) : State :=
  let new := mergeBits (readReg r s) enable v
  match r with
  | .status => if enable.getLsbD 1 && v.getLsbD 1 then { s with overrun := false } else s
  | .cmd => if enable.getLsbD 0 then writeCmd (v.setWidth 32) s else s
  | .result => s
  | .regIn => { s with args := { s.args with regIn := new } }
  | .argCfg => { s with args := { s.args with argCfg := new.setWidth 11 } }
  | .argPoly => { s with args := { s.args with argPoly := new } }
  | .argInit => { s with args := { s.args with argInit := new } }
  | .argXorout => { s with args := { s.args with argXorout := new } }
  | .argCheck => { s with args := { s.args with argCheck := new } }
  | .dataAddr => { s with args := { s.args with dataAddr := new.setWidth 32 } }
  | .dataLen => { s with args := { s.args with dataLen := new.setWidth 32 } }
  | .nameLen => { s with args := { s.args with nameLen := new.setWidth 8 } }
  | .slotMask => { s with args := { s.args with slotMask := new } }
  | .hwcfg => s

/-- The bits a register access of 4 or 8 bytes covers at its offset: all, the lower half or the upper half (R66). -/
def accessEnable (off size : Nat) : Word :=
  if size = 8 then 0xFFFFFFFFFFFFFFFF else if off % 8 = 0 then 0xFFFFFFFF else 0xFFFFFFFF00000000

/-- How far the accessed bits stand above bit 0 of the register. -/
def accessShift (off : Nat) : Nat := 8 * (off % 8)

/-- A read of the register window (R66); reserved offsets read 0 (R43). -/
def readWindowReg (off size : Nat) (s : State) : Word :=
  match regAt (off - off % 8) with
  | none => 0
  | some r => (readReg r s &&& accessEnable off size) >>> accessShift off

/-- A write of the register window (R66); reserved offsets ignore it (R43). -/
def writeWindowReg (off size : Nat) (v : Word) (s : State) : State :=
  match regAt (off - off % 8) with
  | none => s
  | some r => writeReg r (accessEnable off size) (v <<< accessShift off) s

/-- One byte above the registers as the HOST reads it: buffer bytes, 0 elsewhere (R61, R43). -/
def readBufferArea (s : State) (off : Nat) : Byte :=
  if inBuffer s.hw off then bufferByte s off else 0

/-- One byte written above the registers: reserved bytes ignore it (R61, R43). -/
def writeBufferArea (off : Nat) (b : Byte) (s : State) : State :=
  if inBuffer s.hw off then writeBufferByte off b s else s

/-- The `n` low bytes of `v` written at rising offsets (R66). -/
def writeBytes : Nat → Nat → Word → State → State
  | 0, _, _, s => s
  | n + 1, off, v, s => writeBytes n (off + 1) (v >>> 8) (writeBufferArea off (v.setWidth 8) s)

/-- An access of a supported size for its region (R64), naturally aligned (R65). -/
def accessLegal (off size : Nat) : Bool :=
  (if off < 0x100 then size == 4 || size == 8 else size == 1 || size == 2 || size == 4 || size == 8) &&
    off % size == 0

/-- The bytes of the window (R61). -/
def windowSize (hw : HwConfig) : Nat := 0x1000 + hw.dbufSize

/-- The offset of a bus address; `none` when CRCENG does not decode it (R61, R72). -/
def windowOffset (hw : HwConfig) (addr : Nat) : Option Nat :=
  if hw.base ≤ addr ∧ addr < hw.base + windowSize hw then some (addr - hw.base) else none

/-- The value a legal read at an offset returns (R66). -/
def readAt (off size : Nat) (s : State) : Word :=
  if off < 0x100 then readWindowReg off size s
  else ofBytes ((List.range size).map fun j => readBufferArea s (off + j))

/-- The effect of a legal write at an offset (R66). -/
def writeAt (off size : Nat) (v : Word) (s : State) : State :=
  if off < 0x100 then writeWindowReg off size v s else writeBytes size off v s

/-- A HOST read (R64, R65, R71): no effect but the response. -/
def hostRead (addr size : Nat) (s : State) : Outcome :=
  match windowOffset s.hw addr with
  | none => .fault (.outsideWindow addr)
  | some off =>
    if accessLegal off size then .next { s with resp := .data (readAt off size s) }
    else .next { s with resp := .error }

/-- A HOST write (R64, R65, R66): a bus error has no effect. -/
def hostWrite (addr size : Nat) (v : Word) (s : State) : Outcome :=
  match windowOffset s.hw addr with
  | none => .fault (.outsideWindow addr)
  | some off =>
    if accessLegal off size then .next { writeAt off size v s with resp := .done }
    else .next { s with resp := .error }

end Sys2Proof.Machine
end

