-- ==== Sys2Proof/Machine/Registry.lean ====
section
/-! DEFINITION. The registry commands: BUILD (R210), LOOKUP_PRE (R212) and LOOKUP_LIST (R215). The build itself runs
first, when due (R96, R209), so it stays done on a later NAME_RANGE (R234). -/

namespace Sys2Proof.Machine

open Sys2Proof

/-- BUILD (R210). -/
def execBuild (s : State) : Outcome :=
  finish .ok (buildIfDue s)

/-- A lookup's end (R213): NotFound is RESULT 0 with OK (R232). -/
def finishLookup (found : Option Nat) (s : State) : Outcome :=
  match found with
  | some h => finishWith (foundResult h) .ok s
  | none => finishWith 0 .ok s

/-- The name check every lookup begins with, then the search (R212, R215). -/
def lookupBy (search : List Byte → Option Nat) (s : State) : Outcome :=
  if s.hw.nameMax < s.pend.args.nameLen.toNat then raise .nameRange s
  else finishLookup (search (nameOperand s)) s

/-- LOOKUP_PRE (R212): a matching entry i gives the handle 0x80 + i. -/
def execLookupPre (s : State) : Outcome :=
  lookupBy (fun q => (catalogMatch s.hw.catalog q).map (0x80 + ·)) (buildIfDue s)

/-- LOOKUP_LIST (R215): a matching slot k gives the handle k. -/
def execLookupList (s : State) : Outcome :=
  lookupBy (slotMatch s) (buildIfDue s)

end Sys2Proof.Machine
end

