-- ==== Sys2Proof/Machine/TableGenerator.lean ====
section
/-! DEFINITION. The commands that construct, free and inspect a model: CFG (R130), RELEASE (R134), TBLRD (R136) and
PARAMRD (R138). -/

namespace Sys2Proof.Machine

open Sys2Proof

/-- CFG's commit of a built model, after the self-check when VERIFY = 1 (R130, R132). -/
def commitModel (k : BitVec 6) (m : Model) (s : State) : Outcome :=
  if cfgVerify s.pend.args then
    match selfCheck m with
    | none => raise .regRange s
    | some c => if c = m.check then finishWith c .ok (setSlot k (some m) s) else finishWith c .checkMismatch s
  else finish .ok (setSlot k (some m) s)

/-- CFG after the handle check (R130): NAME_RANGE, then INVALID_PARAMETER (R131), then construction. -/
def configureSlot (k : BitVec 6) (s : State) : Outcome :=
  if s.hw.nameMax < s.pend.args.nameLen.toNat then raise .nameRange s
  else
    match cfgWidth s.pend.args with
    | none => raise .invalidParameter s
    | some w => commitModel k (construct (cfgParams w s)) s

/-- CFG (R130), with the handle check of R95: BAD_HANDLE, then SLOT_IN_USE. -/
def execCfg (h : BitVec 8) (s : State) : Outcome :=
  match userSlot s.hw h with
  | .error c => raise c (buildIfDue s)
  | .ok k =>
    match slotAt s k with
    | some _ => raise .slotInUse (buildIfDue s)
    | none => configureSlot k (buildIfDue s)

/-- RELEASE (R134), with the handle check of R95: BAD_HANDLE, then SLOT_EMPTY. -/
def execRelease (h : BitVec 8) (s : State) : Outcome :=
  match userSlot s.hw h with
  | .error c => raise c (buildIfDue s)
  | .ok k =>
    match slotAt s k with
    | none => raise .slotEmpty (buildIfDue s)
    | some _ => finish .ok (setSlot k none (buildIfDue s))

/-- TBLRD (R136). -/
def execTblrd (h i : BitVec 8) (s : State) : Outcome :=
  withModel h s fun m s => finishWith (Table.entry m.table i) .ok s

/-- PARAMRD (R138). An unassigned selector is illegal before anything else happens (R96); the decoder gives no such
term. -/
def execParamrd (h sel : BitVec 8) (s : State) : Outcome :=
  if selectorLegal sel then withModel h s fun m s => finishWith (paramField m sel) .ok s
  else raise .illegalCommand s

end Sys2Proof.Machine
end

