-- ==== Sys2Proof/Machine/UpdateEngine.lean ====
section
/-! DEFINITION. The computation commands: INIT (R165), UPDATE (R171), FINAL (R175) and CHECK (R180). -/

namespace Sys2Proof.Machine

open Sys2Proof

/-- INIT (R165). -/
def execInit (h : BitVec 8) (s : State) : Outcome :=
  withModel h s fun m s => finishWith (initReg m) .ok s

/-- UPDATE on its model (R171): DATA_RANGE on the exact sum (R69), then REG_RANGE (R167), then the fold. -/
def updateModel (m : Model) (s : State) : Outcome :=
  if s.hw.dbufSize < s.pend.args.dataAddr.toNat + s.pend.args.dataLen.toNat then raise .dataRange s
  else if inRange m.width s.pend.args.regIn then
    finishWith (updateBytes m s.pend.args.regIn (dataOperand s)) .ok s
  else raise .regRange s

/-- UPDATE (R171). -/
def execUpdate (h : BitVec 8) (s : State) : Outcome :=
  withModel h s updateModel

/-- FINAL (R175): every 64-bit REG_IN is accepted. -/
def execFinal (h : BitVec 8) (s : State) : Outcome :=
  withModel h s fun m s => finishWith (finalReg m s.pend.args.regIn) .ok s

/-- CHECK on its model (R180): REG_RANGE leaves RESULT, CHECK_MISMATCH writes it. -/
def checkModel (m : Model) (s : State) : Outcome :=
  match selfCheck m with
  | none => raise .regRange s
  | some c => if c = m.check then finishWith c .ok s else finishWith c .checkMismatch s

/-- CHECK (R180). -/
def execCheck (h : BitVec 8) (s : State) : Outcome :=
  withModel h s checkModel

end Sys2Proof.Machine
end

