-- ==== Sys2Proof/Machine/Dispatch.lean ====
section
/-! DEFINITION. One arm a command: what its completion does, after its word has been found legal (R96). -/

namespace Sys2Proof.Machine

open Sys2Proof

def exec (i : Instr) (s : State) : Host.Outcome State Fault Refusal :=
  match i with
  | .cfg h => Sys2Proof.Machine.execCfg h s
  | .release h => Sys2Proof.Machine.execRelease h s
  | .init h => Sys2Proof.Machine.execInit h s
  | .update h => Sys2Proof.Machine.execUpdate h s
  | .final h => Sys2Proof.Machine.execFinal h s
  | .lookupPre => Sys2Proof.Machine.execLookupPre s
  | .lookupList => Sys2Proof.Machine.execLookupList s
  | .check h => Sys2Proof.Machine.execCheck h s
  | .tblrd h idx => Sys2Proof.Machine.execTblrd h idx s
  | .paramrd h sel => Sys2Proof.Machine.execParamrd h sel s
  | .build => Sys2Proof.Machine.execBuild s

end Sys2Proof.Machine
end

