-- ==== Sys2Proof/Machine/Engine.lean ====
section
/-! DEFINITION. The ENGINE's completion (R37, R96) and what one event does. -/

namespace Sys2Proof.Machine

open Sys2Proof

/-- Completion of the pending command (R37): an illegal word ends with ILLEGAL_COMMAND and no other effect (R93, R98),
a legal one as `exec` says. -/
def complete (s : State) : Outcome :=
  match decode s.pend.cmd with
  | .error _ => raise .illegalCommand s
  | .ok i => exec i s

/-- The ENGINE's turn: it completes the pending command; when not BUSY it does nothing (R246). -/
def engineTurn (s : State) : Outcome :=
  if s.busy then complete s else .next s

/-- One event of R74's total order. -/
def act (e : Event) (s : State) : Outcome :=
  match e with
  | .write addr size value => hostWrite addr size value s
  | .read addr size => hostRead addr size s
  | .reset => .next (assertReset s)
  | .engine => engineTurn s

/-- The next event, taken off the inputs; when none is left the ENGINE has the turn (R270, log 4). -/
def nextEvent (s : State) : Outcome :=
  match s.inputs with
  | [] => engineTurn s
  | e :: rest => act e { s with inputs := rest }

/-- The state in which `c` has just been accepted (R36) and the ENGINE has the next turn. -/
def withCommand (c : Cmd) (s : State) : State :=
  { accept c s with inputs := .engine :: s.inputs }

end Sys2Proof.Machine
end

