-- ==== Sys2Proof/Machine/Step.lean ====
section
/-! DEFINITION. One step, and how the host places an instruction word before it. -/

namespace Sys2Proof.Machine

/-- One step of CRCENG and its HOST. -/
def step (s : State) : Host.Outcome State Fault Refusal := nextEvent s

/-- `s` with the word accepted as the pending command (R36), the ENGINE's turn next (log 15). -/
def State.withFetchWord (s : State) (nbits w : Nat) : State :=
  withCommand (BitVec.ofNat 32 (w % 2 ^ nbits)) s

end Sys2Proof.Machine
end

