-- ==== Sys2Proof/Safety.lean ====
section
/-! DEFINITION. What a conforming instance is (R9, R203, R205), the invariant every run from reset keeps, and the
relation "H names the valid model m" (R94, R95) in which claims about commands are stated. -/

namespace Sys2Proof

open Sys2Proof.Machine

/-- The parameter ranges of R9. -/
def HwConfig.rangesOk (hw : HwConfig) : Bool :=
  1 ≤ hw.nUser && hw.nUser ≤ 64 &&
  hw.nameMax % 8 == 0 && 8 ≤ hw.nameMax && hw.nameMax ≤ 128 &&
  hw.dbufSize % 8 == 0 && 8 ≤ hw.dbufSize && hw.dbufSize ≤ 2 ^ 31 &&
  1 ≤ hw.catalog.length && hw.catalog.length ≤ 128

/-- The obligations on CATALOG (R203, R205): the required entries, names pairwise different and short enough, every
entry passing its self-check. That every width is in W is `Width`'s own doing. -/
def catalogOk (nameMax : Nat) (catalog : List Params) : Bool :=
  Config.requiredEntries.all catalog.contains &&
  decide (catalog.Pairwise fun p q => p.name ≠ q.name) &&
  catalog.all (fun p => decide (p.name.length ≤ nameMax)) &&
  catalog.all (fun p => selfCheck (construct p) == some p.check)

/-- An instance of this spec (R9, R205). -/
def HwConfig.conforming (hw : HwConfig) : Bool :=
  hw.rangesOk && catalogOk hw.nameMax hw.catalog

namespace Machine

/-- A model as R38 and R40 want it: a name that fits, POLY masked, the table the generator builds. -/
structure ModelOk (hw : HwConfig) (m : Model) : Prop where
  nameFits   : m.name.length ≤ hw.nameMax
  polyMasked : m.poly &&& mask m.width = m.poly
  tableBuilt : m.table = buildTable m.width m.poly m.refin

/-- The invariant of a run: a conforming instance; buffer memory in its canonical form and inside NBUF and DBUF;
bytes written under a command are buffer bytes; valid slots are below N_USER and hold proper models; in READY the
catalog TABLEs are the built ones; BUILDING only while the command that set it is pending (R96, R208). -/
structure Inv (s : State) : Prop where
  conforming   : s.hw.conforming = true
  memoryForm   : Memory.wf s.mem = true
  memoryPlaces : ∀ c ∈ s.mem, inBuffer s.hw c.1 = true
  racedPlaces  : ∀ off ∈ s.raced, inBuffer s.hw off = true
  slotsExist   : ∀ k m, slotAt s k = some m → k.toNat < s.hw.nUser
  slotsOk      : ∀ k m, slotAt s k = some m → ModelOk s.hw m
  tablesBuilt  : ∀ tables, s.registry = .ready tables → tables = catalogTables s.hw.catalog
  buildingBusy : s.registry = .building → s.busy = true ∧ triggersBuild s.pend.cmd = true

/-- "`H` names the valid model `m`" (R94, and R95 passes): a built catalog entry when H[7] = 1, a valid user slot
below N_USER when H[7:6] = 00. -/
def NamesModel (s : State) (h : BitVec 8) (m : Model) : Prop :=
  (handleIsCatalog h = true ∧ ∃ p t tables, s.hw.catalog[(handleEntry h).toNat]? = some p ∧
      s.registry = .ready tables ∧ tables[(handleEntry h).toNat]? = some t ∧ m = catalogModel p t) ∨
  (handleIsCatalog h = false ∧ handleIsVoid h = false ∧ (handleSlot h).toNat < s.hw.nUser ∧
      slotAt s (handleSlot h) = some m)

/-- The pending command's query name, byte for byte (R207): `name` has L.NAME_LEN bytes and its byte j is what the
command sees in NBUF[j]. -/
def NameMatches (s : State) (name : List Byte) : Prop :=
  name.length = s.pend.args.nameLen.toNat ∧
    ∀ j, j < s.pend.args.nameLen.toNat → name[j]? = some (commandByte s (0x100 + j))

/-- The ENGINE has the next turn: its event is next, or no event is left. -/
def EngineNext (s : State) : Prop := s.inputs = [] ∨ s.inputs.head? = some .engine

/-- RESET is asserted next. -/
def ResetNext (s : State) : Prop := s.inputs.head? = some .reset

/-- A HOST write of `size` bytes at a window offset is next. -/
def WriteNext (s : State) (off size : Nat) (v : Word) : Prop :=
  s.inputs.head? = some (.write (s.hw.base + off) size v)

/-- A HOST read of `size` bytes at a window offset is next. -/
def ReadNext (s : State) (off size : Nat) : Prop :=
  s.inputs.head? = some (.read (s.hw.base + off) size)

/-- A HOST write of the command word `c` to CMD is next (R29): 4 bytes, or 8 whose upper half is ignored. -/
def CmdWriteNext (s : State) (c : Cmd) : Prop :=
  ∃ size v, (size = 4 ∨ size = 8) ∧ WriteNext s 0x08 size v ∧ c = v.setWidth 32

/-- The state with its next event taken off. -/
def popped (s : State) : State := { s with inputs := s.inputs.tail }

end Machine

end Sys2Proof
end

