-- ==== Sys2Proof/Certificates/Slice0/Obligations.lean ====
section
/-! DEFINITION. The statements for the provers. Each docstring says which rule of spec/ it formalises. Where a clause
rests on the model's own choice the docstring names the log entry. -/

open Sys2Proof Sys2Proof.Machine

/-! ### Encoding and decoding -/

/-- R101 and R96 agree: decoding the encoding of a legal command gives it back, with every handle, index and selector. -/
def Obligations.DecodeOfEncodeIsTheCommand : Prop :=
  ∀ i : Instr, i.wf = true → decode (encode i) = .ok i

/-- R91, R97, R100: a word the decoder accepts is the encoding of the command it gives, so no bit of it is ignored. -/
def Obligations.AcceptedWordsAreEncodings : Prop :=
  ∀ (c : Cmd) (i : Instr), decode c = .ok i → encode i = c ∧ i.wf = true

/-- The words R93 and R98 call illegal: an unassigned opcode; RSV not 0; H not 0 for LOOKUP_PRE, LOOKUP_LIST and BUILD;
IMM8 not 0 for all but TBLRD and PARAMRD; a PARAMRD selector in 0x07..0x7F. -/
def Sys2Proof.IllegalWord (c : Cmd) : Prop :=
  c.extractLsb' 0 8 = 0x00 ∨ 0x0C ≤ (c.extractLsb' 0 8).toNat ∨
  c.extractLsb' 24 8 ≠ 0 ∨
  (c.extractLsb' 8 8 ≠ 0 ∧ (c.extractLsb' 0 8 = 0x06 ∨ c.extractLsb' 0 8 = 0x07 ∨ c.extractLsb' 0 8 = 0x0B)) ∨
  (c.extractLsb' 16 8 ≠ 0 ∧ c.extractLsb' 0 8 ≠ 0x09 ∧ c.extractLsb' 0 8 ≠ 0x0A) ∨
  (c.extractLsb' 0 8 = 0x0A ∧ 0x07 ≤ (c.extractLsb' 16 8).toNat ∧ (c.extractLsb' 16 8).toNat ≤ 0x7F)

/-- R93 and R98: exactly the illegal words are refused by the decoder, and an illegal pending word ends with
ILLEGAL_COMMAND, changing nothing but STATUS.ERR and BUSY. -/
def Obligations.IllegalWordsChangeOnlyStatus : Prop :=
  (∀ c : Cmd, IllegalWord c ↔ ∃ e, decode c = .error e) ∧
  ∀ s : State, s.busy = true → IllegalWord s.pend.cmd →
    engineTurn s = .next { s with err := .illegalCommand, busy := false }

/-- Words written out from R91's pattern decode to the commands they stand for (95_test_vectors.md 2.4 to 2.6). -/
def Obligations.WrittenOutWordsDecode : Prop :=
  decode 0b00000000_00000000_00000001_00000001 = .ok (.cfg 0x01) ∧
  decode 0b00000000_00000000_10000100_00000011 = .ok (.init 0x84) ∧
  decode 0b00000000_10000000_00000010_00001001 = .ok (.tblrd 0x02 0x80) ∧
  decode 0b00000000_00000011_10000100_00001010 = .ok (.paramrd 0x84 0x03) ∧
  decode 0b00000000_00000000_00000000_00001011 = .ok .build ∧
  decode 0b00000000_00000111_00000000_00001010 = .error .unassignedSelector

/-- R37 and R96: on the ENGINE's turn a step runs the command the pending word decodes to; and a placed word is run by
the very next step on the state of its acceptance (log 15). -/
def Obligations.StepRunsTheDecodedCommand : Prop :=
  (∀ (s : State) (i : Instr), s.busy = true → EngineNext s → decode s.pend.cmd = .ok i →
    step s = exec i (popped s)) ∧
  ∀ (s : State) (w : Nat) (i : Instr), w < 2 ^ 32 → decode (BitVec.ofNat 32 w) = .ok i →
    step (s.withFetchWord 32 w) = exec i (accept (BitVec.ofNat 32 w) s)

/-! ### Acceptance, BUSY, OVERRUN, STATUS -/

/-- R36, R29: a CMD write while BUSY = 0 is accepted: PEND takes the word and copies of the argument registers, BUSY is
set, REGSTATE becomes BUILDING on the first triggering word; every other register, the slots and every buffer byte stay. -/
def Obligations.CmdWriteIsAccepted : Prop :=
  ∀ (s : State) (c : Cmd), CmdWriteNext s c → s.busy = false →
    ∃ t, step s = .next t ∧ t.pend.cmd = c ∧ t.pend.args = s.args ∧ t.busy = true ∧
      t.registry = (if s.registry = .uninitialized ∧ (c = 0x00000006 ∨ c = 0x0000000B) then .building
        else s.registry) ∧
      t.hw = s.hw ∧ t.overrun = s.overrun ∧ t.err = s.err ∧ t.result = s.result ∧ t.args = s.args ∧
      t.slots = s.slots ∧ (∀ off, bufferByte t off = bufferByte s off) ∧
      t.inputs = s.inputs.tail ∧ t.resp = .done

/-- R25: BUSY is set by the acceptance of a CMD write, cleared by the completion and by RESET, changed by no other event,
and while it is set PEND holds the accepted command. -/
def Obligations.BusyMarksThePendingCommand : Prop :=
  ∀ s t : State, step s = .next t →
    (s.busy = false → ∀ c, CmdWriteNext s c → t.busy = true ∧ t.pend.cmd = c) ∧
    (s.busy = true → EngineNext s → t.busy = false) ∧
    (ResetNext s → t.busy = false) ∧
    (s.busy = false → t.busy = true → ∃ c, CmdWriteNext s c) ∧
    (s.busy = true → t.busy = false → EngineNext s ∨ ResetNext s) ∧
    (s.busy = true → t.busy = true → t.pend = s.pend)

/-- R26: OVERRUN is set by a CMD write while BUSY = 1, stays until the HOST writes STATUS with bit 1 = 1 or RESET, and no
completion changes it. -/
def Obligations.OverrunStaysUntilCleared : Prop :=
  ∀ s t : State, step s = .next t →
    (s.busy = true → (∃ c, CmdWriteNext s c) → t.overrun = true) ∧
    (s.overrun = false → t.overrun = true → s.busy = true ∧ ∃ c, CmdWriteNext s c) ∧
    (s.overrun = true → t.overrun = false →
      ResetNext s ∨ ∃ size v, (size = 4 ∨ size = 8) ∧ WriteNext s 0x00 size v ∧ v.getLsbD 1 = true) ∧
    ((∃ size v, (size = 4 ∨ size = 8) ∧ WriteNext s 0x00 size v ∧ v.getLsbD 1 = true) → t.overrun = false) ∧
    (EngineNext s → t.overrun = s.overrun)

/-- R265: a CMD write while BUSY = 1 is dropped, not queued: it sets OVERRUN, answers the HOST, and changes nothing
else. -/
def Obligations.CmdWriteWhileBusyIsDropped : Prop :=
  ∀ (s : State) (c : Cmd), CmdWriteNext s c → s.busy = true →
    step s = .next { popped s with overrun := true, resp := .done }

/-- R231's table of status codes and their numbers. -/
def Sys2Proof.statusCodes : List (Code × BitVec 4) :=
  [(.ok, 0x0), (.illegalCommand, 0x1), (.badHandle, 0x2), (.notReady, 0x3), (.slotEmpty, 0x4), (.slotInUse, 0x5),
   (.nameRange, 0x6), (.invalidParameter, 0x7), (.dataRange, 0x8), (.regRange, 0x9), (.checkMismatch, 0xA)]

/-- R24: what the bits of STATUS read as, with the numbers R27 gives REGSTATE and R231 gives each of the eleven codes; that a
write of STATUS changes only OVERRUN and only by a 1 in bit 1; and that all of it is 0 after reset. -/
def Obligations.StatusReadsItsFields : Prop :=
  (∀ s : State, ReadNext s 0x00 8 → ∃ v, step s = .next { popped s with resp := .data v } ∧
    v.getLsbD 0 = s.busy ∧ v.getLsbD 1 = s.overrun ∧
    v.extractLsb' 2 2 = regstate s.registry ∧
    (s.registry = .uninitialized → v.extractLsb' 2 2 = 0b00) ∧ (s.registry = .building → v.extractLsb' 2 2 = 0b01) ∧
    (∀ tables, s.registry = .ready tables → v.extractLsb' 2 2 = 0b10) ∧
    v.extractLsb' 4 4 = 0 ∧ (s.err, v.extractLsb' 8 4) ∈ statusCodes ∧ v.extractLsb' 12 52 = 0) ∧
  (∀ (s : State) (size : Nat) (v : Word), size = 4 ∨ size = 8 → WriteNext s 0x00 size v →
    step s = .next { popped s with overrun := s.overrun && !v.getLsbD 1, resp := .done }) ∧
  (∀ (s : State) (v : Word), WriteNext s 0x04 4 v → step s = .next { popped s with resp := .done }) ∧
  ∀ hw : HwConfig, statusWord (State.resetOf hw) = 0

/-- R28: ERR is written at completion and by RESET (OK) alone, so acceptance leaves it. -/
def Obligations.ErrChangesOnlyAtCompletion : Prop :=
  ∀ s t : State, step s = .next t →
    (t.err ≠ s.err → ResetNext s ∨ (s.busy = true ∧ EngineNext s)) ∧
    (ResetNext s → t.err = .ok)

/-- R30: RESULT is written only at completion, by a command that ends with OK or CHECK_MISMATCH; RESET makes it 0; HOST
writes leave it. -/
def Obligations.ResultChangesOnlyAtCompletion : Prop :=
  ∀ s t : State, step s = .next t →
    (t.result ≠ s.result →
      ResetNext s ∨ (s.busy = true ∧ EngineNext s ∧ (t.err = .ok ∨ t.err = .checkMismatch))) ∧
    (ResetNext s → t.result = 0)

/-! ### The HOST's window -/

/-- The argument registers of R23 with the bits R31, R32, R34 and R35 make writable. -/
def Sys2Proof.argumentRegisters : List (Nat × Word) :=
  [(0x18, 0xFFFFFFFFFFFFFFFF), (0x20, 0x7FF), (0x28, 0xFFFFFFFFFFFFFFFF), (0x30, 0xFFFFFFFFFFFFFFFF),
   (0x38, 0xFFFFFFFFFFFFFFFF), (0x40, 0xFFFFFFFFFFFFFFFF), (0x48, 0xFFFFFFFF), (0x50, 0xFFFFFFFF), (0x58, 0xFF),
   (0x60, 0xFFFFFFFFFFFFFFFF)]

/-- R31, R32, R34, R35: an 8-byte write of an argument register is read back in its writable bits, the others reading 0,
at any time, BUSY or not; no other register of the window, no slot and no buffer byte changes. -/
def Obligations.ArgumentRegistersReadBack : Prop :=
  ∀ (s : State) (r : Nat × Word) (v : Word), r ∈ argumentRegisters → WriteNext s r.1 8 v →
    ∃ t, step s = .next t ∧ readAt r.1 8 t = v &&& r.2 ∧
      (∀ off, off % 8 = 0 → off < 0x100 → off ≠ r.1 → readAt off 8 t = readAt off 8 s) ∧
      t = { popped s with args := t.args, resp := .done }

/-- R66: a 4-byte write at +0 or +4 of an argument register replaces that half and leaves the other, and no other register
of the window, no slot and no buffer byte changes; a 4-byte read answers that half and changes nothing. -/
def Obligations.HalfAccessesTouchOneHalf : Prop :=
  ∀ (s : State) (r : Nat × Word) (v : Word), r ∈ argumentRegisters →
    let writesAlone := fun t : State =>
      (∀ off, off % 8 = 0 → off < 0x100 → off ≠ r.1 → readAt off 8 t = readAt off 8 s) ∧
      t = { popped s with args := t.args, resp := .done }
    (WriteNext s r.1 4 v → ∃ t, step s = .next t ∧ writesAlone t ∧
      readAt r.1 8 t = (readAt r.1 8 s &&& 0xFFFFFFFF00000000 ||| v &&& 0x00000000FFFFFFFF) &&& r.2) ∧
    (WriteNext s (r.1 + 4) 4 v → ∃ t, step s = .next t ∧ writesAlone t ∧
      readAt r.1 8 t = (readAt r.1 8 s &&& 0x00000000FFFFFFFF ||| v <<< 32) &&& r.2) ∧
    (ReadNext s r.1 4 → step s = .next { popped s with resp := .data (readAt r.1 8 s &&& 0x00000000FFFFFFFF) }) ∧
    (ReadNext s (r.1 + 4) 4 → step s = .next { popped s with resp := .data (readAt r.1 8 s >>> 32) })

/-- R44: a HOST write to RESULT, to HWCFG, or to STATUS with bit 1 = 0 has no effect and receives a normal response. -/
def Obligations.ReadOnlyRegistersIgnoreWrites : Prop :=
  ∀ (s : State) (off : Nat) (v : Word),
    (off = 0x10 ∨ off = 0x68 ∨ (off = 0x00 ∧ v.getLsbD 1 = false)) →
    (WriteNext s off 8 v → step s = .next { popped s with resp := .done }) ∧
    (WriteNext s off 4 v → step s = .next { popped s with resp := .done }) ∧
    (WriteNext s (off + 4) 4 v → step s = .next { popped s with resp := .done })

/-- R43, R61: the reserved offsets 0x000C, 0x0070..0x00FF and the reserved area above NBUF read as 0 and ignore writes,
with a normal response. -/
def Obligations.ReservedOffsetsReadZeroIgnoreWrites : Prop :=
  ∀ (s : State) (off size : Nat) (v : Word), s.hw.conforming = true → accessLegal off size = true →
    ((off = 0x0C ∧ size = 4) ∨ (0x70 ≤ off ∧ off ≤ 0xFF) ∨ (0x100 + s.hw.nameMax ≤ off ∧ off ≤ 0xFFF)) →
    (WriteNext s off size v → step s = .next { popped s with resp := .done }) ∧
    (ReadNext s off size → step s = .next { popped s with resp := .data 0 })

/-- R33: HWCFG reads as N_USER, N_CAT, NAME_MAX and DBUF_SIZE in their fields, bits [31:24] 0; writing it changes
nothing. -/
def Obligations.HwcfgReportsTheInstance : Prop :=
  (∀ s : State, s.hw.conforming = true → ReadNext s 0x68 8 →
    ∃ v, step s = .next { popped s with resp := .data v } ∧
      (v.extractLsb' 0 8).toNat = s.hw.nUser ∧ (v.extractLsb' 8 8).toNat = s.hw.catalog.length ∧
      (v.extractLsb' 16 8).toNat = s.hw.nameMax ∧ v.extractLsb' 24 8 = 0 ∧
      (v.extractLsb' 32 32).toNat = s.hw.dbufSize) ∧
  ∀ (s : State) (v : Word), WriteNext s 0x68 8 v → step s = .next { popped s with resp := .done }

/-- R66, R62, R63: a legal write in NBUF or DBUF puts bits 8j+7:8j of the value into byte a+j; every other buffer byte and
every register stays; a legal read gives the value whose bits 8j+7:8j are byte a+j. R266: under a pending command the
written bytes, and they alone, become free values to the command (the model's form of them, log 9). -/
def Obligations.BufferAccessesAreLittleEndian : Prop :=
  ∀ (s : State) (off size : Nat), s.hw.conforming = true → accessLegal off size = true →
    inBuffer s.hw off = true →
    (∀ v, WriteNext s off size v → ∃ t, step s = .next t ∧
      (∀ j, j < size → bufferByte t (off + j) = v.extractLsb' (8 * j) 8) ∧
      (∀ a, a < off ∨ off + size ≤ a → bufferByte t a = bufferByte s a) ∧
      (s.busy = true → ∀ j, j < size → commandByte t (off + j) = Config.racedByte s.draw (off + j)) ∧
      (s.busy = true → ∀ a, a < off ∨ off + size ≤ a → commandByte t a = commandByte s a) ∧
      (s.busy = false → t.raced = s.raced) ∧
      t = { popped s with mem := t.mem, raced := t.raced, resp := .done }) ∧
    (ReadNext s off size → ∃ v, step s = .next { popped s with resp := .data v } ∧
      (∀ j, j < size → v.extractLsb' (8 * j) 8 = bufferByte s (off + j)) ∧ v >>> (8 * size) = 0)

/-- R64, R65: an access gets a bus error, without any effect, exactly when its size is not one its region supports or its
offset is no multiple of the size; and no legal access straddles a region boundary. -/
def Obligations.BadAccessesGetABusError : Prop :=
  ∀ (s : State) (off size : Nat) (v : Word), off < 0x1000 + s.hw.dbufSize →
    ((off < 0x100 ∧ size ≠ 4 ∧ size ≠ 8) ∨ (size ≠ 1 ∧ size ≠ 2 ∧ size ≠ 4 ∧ size ≠ 8) ∨ off % size ≠ 0 →
      (WriteNext s off size v → step s = .next { popped s with resp := .error }) ∧
      (ReadNext s off size → step s = .next { popped s with resp := .error })) ∧
    (¬((off < 0x100 ∧ size ≠ 4 ∧ size ≠ 8) ∨ (size ≠ 1 ∧ size ≠ 2 ∧ size ≠ 4 ∧ size ≠ 8) ∨ off % size ≠ 0) →
      (WriteNext s off size v → ∃ t, step s = .next t ∧ t.resp = .done) ∧
      (ReadNext s off size → ∃ t w, step s = .next t ∧ t.resp = .data w) ∧
      (s.hw.conforming = true →
        (off < 0x100 → off + size ≤ 0x100) ∧
        (off < 0x100 + s.hw.nameMax → off + size ≤ 0x100 + s.hw.nameMax) ∧
        (off < 0x1000 → off + size ≤ 0x1000) ∧
        off + size ≤ 0x1000 + s.hw.dbufSize))

/-- What R29 to R32, R34 and R35 make CMD, RESULT and the argument registers read as. -/
def Sys2Proof.registerValues (s : State) : List (Nat × Word) :=
  [(0x08, 0), (0x10, s.result), (0x18, s.args.regIn), (0x20, s.args.argCfg.setWidth 64), (0x28, s.args.argPoly),
   (0x30, s.args.argInit), (0x38, s.args.argXorout), (0x40, s.args.argCheck), (0x48, s.args.dataAddr.setWidth 64),
   (0x50, s.args.dataLen.setWidth 64), (0x58, s.args.nameLen.setWidth 64), (0x60, s.args.slotMask)]

/-- R71: a HOST read of the window has no side effect: it only answers the HOST, with the value at its offset when it is
legal and with a bus error when not. R30, R29, R31, R32, R34, R35: CMD reads 0, RESULT and the argument registers read as
they stand, in every state; R66: a 4-byte read of any register gives the half it addresses. -/
def Obligations.ReadsHaveNoSideEffect : Prop :=
  (∀ (s : State) (off size : Nat), ReadNext s off size → off < 0x1000 + s.hw.dbufSize →
    (accessLegal off size = true → step s = .next { popped s with resp := .data (readAt off size s) }) ∧
    (accessLegal off size = false → step s = .next { popped s with resp := .error })) ∧
  (∀ s : State, ∀ r ∈ registerValues s, readAt r.1 8 s = r.2) ∧
  ∀ (s : State) (off : Nat), off % 8 = 0 → off < 0x100 →
    readAt off 4 s = readAt off 8 s &&& 0x00000000FFFFFFFF ∧ readAt (off + 4) 4 s = readAt off 8 s >>> 32

/-- The model's choice (log 11): a HOST access outside the window, which R61 leaves to the platform, stops with
`outsideWindow`. -/
def Obligations.AccessOutsideTheWindowFaults : Prop :=
  ∀ (s : State) (addr size : Nat) (v : Word),
    addr < s.hw.base ∨ s.hw.base + (0x1000 + s.hw.dbufSize) ≤ addr →
    (s.inputs.head? = some (.write addr size v) → step s = .fault (.outsideWindow addr)) ∧
    (s.inputs.head? = some (.read addr size) → step s = .fault (.outsideWindow addr))

/-! ### Every completion -/

/-- R230: CRCENG has no trap: every pending word, legal or not, completes in a next state with BUSY clear, never in a fault
or a refusal, and the code in ERR is ILLEGAL_COMMAND exactly when the word is illegal. -/
def Obligations.EveryCommandEndsInAStatusCode : Prop :=
  ∀ s : State, s.busy = true → ∃ t, engineTurn s = .next t ∧ t.busy = false ∧
    (t.err = .illegalCommand ↔ IllegalWord s.pend.cmd)

/-- R270: with no HOST event left, or on the ENGINE's event, a pending command completes in this very step (the model's
reading of fairness, log 4). -/
def Obligations.PendingCommandCompletes : Prop :=
  ∀ s : State, s.busy = true → EngineNext s →
    ∃ t, step s = .next t ∧ t.busy = false ∧ t.inputs = s.inputs.tail

/-- The frame of every command (R13, R21, R26, R62, R63): the instance, OVERRUN, the argument registers, PEND and every
buffer byte stay as they were; the slots too unless it is CFG or RELEASE, which touch only the slot of their handle;
RESULT too for RELEASE and BUILD; and the catalog tables unless the build was due. -/
def Obligations.CommandFrame : Prop :=
  ∀ (i : Instr) (s t : State), exec i s = .next t →
    t.hw = s.hw ∧ t.overrun = s.overrun ∧ t.args = s.args ∧ t.pend = s.pend ∧
    (∀ off, bufferByte t off = bufferByte s off) ∧ (∀ off, commandByte t off = commandByte s off) ∧
    t.inputs = s.inputs ∧ t.resp = s.resp ∧
    (∀ k, slotAt t k = slotAt s k ∨ ((i = .cfg i.handle ∨ i = .release i.handle) ∧ k = handleSlot i.handle)) ∧
    ((i = .release i.handle ∨ i = .build) → t.result = s.result) ∧
    (s.registry ≠ .building → t.registry = s.registry)

/-- R234: a pending command that ends with a code other than OK changes ERR and BUSY and nothing else, but for the RESULT
of a CHECK_MISMATCH and the build a LOOKUP_PRE triggered, which stays done. -/
def Obligations.ErrorsChangeNothingElse : Prop :=
  ∀ s t : State, Inv s → s.busy = true → engineTurn s = .next t → t.err ≠ .ok →
    t = { s with err := t.err, busy := false, result := t.result, registry := t.registry } ∧
    (t.err ≠ .checkMismatch → t.result = s.result) ∧
    (t.registry ≠ s.registry →
      s.pend.cmd = 0x00000006 ∧ t.err = .nameRange ∧ t.registry = .ready (catalogTables s.hw.catalog))

/-! ### Handles -/

/-- R95's check_handle, transcribed: the code it raises, none when it passes. -/
def Sys2Proof.handleCode (opc h : BitVec 8) (s : State) : Option Code :=
  if h.getLsbD 7 then
    if opc = 0x01 ∨ opc = 0x02 then some .badHandle
    else if s.hw.catalog.length ≤ (h.extractLsb' 0 7).toNat then some .badHandle
    else if regstate s.registry ≠ 0b10 then some .notReady
    else none
  else if h.getLsbD 6 then some .badHandle
  else if s.hw.nUser ≤ (h.extractLsb' 0 6).toNat then some .badHandle
  else if opc = 0x01 then (if (slotAt s (h.extractLsb' 0 6)).isSome then some .slotInUse else none)
  else (if (slotAt s (h.extractLsb' 0 6)).isNone then some .slotEmpty else none)

/-- R95, in every state of a run: a legal command that takes a handle ends with the code check_handle raises and no other
effect, and with none of those codes when it passes. -/
def Obligations.HandleCheckFollowsTheRule : Prop :=
  ∀ (s : State) (i : Instr), Inv s → i.wf = true → usesH i.opcode = true →
    (∀ c, handleCode i.opcode i.handle (buildIfDue s) = some c →
      exec i s = .next { buildIfDue s with err := c, busy := false }) ∧
    (handleCode i.opcode i.handle (buildIfDue s) = none →
      ∃ t, exec i s = .next t ∧
        t.err ≠ .badHandle ∧ t.err ≠ .notReady ∧ t.err ≠ .slotEmpty ∧ t.err ≠ .slotInUse)

/-! ### What each command does -/

/-- R166 with R165: INIT on a valid model puts its INIT into RESULT, reversed in w bits when REFIN = 1, unmasked, and ends
with OK; it changes nothing else. -/
def Obligations.InitReturnsTheInitialRegister : Prop :=
  ∀ (s : State) (h : BitVec 8) (m : Model), NamesModel (buildIfDue s) h m →
    exec (.init h) s = .next { buildIfDue s with
      result := if m.refin = true then rev m.width m.init else m.init, err := .ok, busy := false }

/-- R171: UPDATE on a valid model completes when the range lies in DBUF and REG_IN is in range: RESULT is the fold of the
bytes DBUF[a..a+n-1] in rising order, in range again (R164); nothing else changes. -/
def Obligations.UpdateFoldsTheBytes : Prop :=
  ∀ (s : State) (h : BitVec 8) (m : Model), NamesModel (buildIfDue s) h m →
    s.pend.args.dataAddr.toNat + s.pend.args.dataLen.toNat ≤ s.hw.dbufSize →
    s.pend.args.regIn &&& ~~~ mask m.width = 0 →
    ∃ r, exec (.update h) s = .next { buildIfDue s with result := r, err := .ok, busy := false } ∧
      r = updateBytes m s.pend.args.regIn ((List.range s.pend.args.dataLen.toNat).map fun j =>
        commandByte s (0x1000 + (s.pend.args.dataAddr.toNat + j))) ∧
      r &&& ~~~ mask m.width = 0 ∧ (s.pend.args.dataLen = 0 → r = s.pend.args.regIn)

/-- R171, R167, R69: when the range does not lie in DBUF, by the exact sum, UPDATE ends with DATA_RANGE, whatever REG_IN;
else with REG_RANGE when REG_IN is not in range, whatever DATA_LEN; with no other effect. -/
def Obligations.UpdateRangeErrors : Prop :=
  ∀ (s : State) (h : BitVec 8) (m : Model), NamesModel (buildIfDue s) h m →
    (s.hw.dbufSize < s.pend.args.dataAddr.toNat + s.pend.args.dataLen.toNat →
      exec (.update h) s = .next { buildIfDue s with err := .dataRange, busy := false }) ∧
    (s.pend.args.dataAddr.toNat + s.pend.args.dataLen.toNat ≤ s.hw.dbufSize →
      s.pend.args.regIn &&& ~~~ mask m.width ≠ 0 →
      exec (.update h) s = .next { buildIfDue s with err := .regRange, busy := false })

/-- R172 with R175: FINAL accepts every REG_IN: RESULT is REG_IN, reversed in w bits when REFIN differs from REFOUT, XORed
with XOROUT and masked; the bits of REG_IN at and above w do not matter; the result is in range; nothing else changes. -/
def Obligations.FinalReturnsTheChecksum : Prop :=
  ∀ (s : State) (h : BitVec 8) (m : Model), NamesModel (buildIfDue s) h m →
    ∃ c, exec (.final h) s = .next { buildIfDue s with result := c, err := .ok, busy := false } ∧
      c = ((if m.refin ≠ m.refout then rev m.width s.pend.args.regIn else s.pend.args.regIn) ^^^ m.xorout) &&&
        mask m.width ∧
      c = finalReg m (s.pend.args.regIn &&& mask m.width) ∧ c &&& ~~~ mask m.width = 0

/-- R180, R178: CHECK computes final(update(init, "123456789")): OK with it in RESULT when it equals CHECK, CHECK_MISMATCH
with it in RESULT when not, REG_RANGE with RESULT unchanged when the initial register is out of range. -/
def Obligations.CheckComparesTheSelfCheck : Prop :=
  ∀ (s : State) (h : BitVec 8) (m : Model), NamesModel (buildIfDue s) h m →
    (initReg m &&& ~~~ mask m.width ≠ 0 →
      exec (.check h) s = .next { buildIfDue s with err := .regRange, busy := false }) ∧
    ∀ c, initReg m &&& ~~~ mask m.width = 0 →
      c = finalReg m (updateBytes m (initReg m) [0x31, 0x32, 0x33, 0x34, 0x35, 0x36, 0x37, 0x38, 0x39]) →
      (c = m.check → exec (.check h) s = .next { buildIfDue s with result := c, err := .ok, busy := false }) ∧
      (c ≠ m.check →
        exec (.check h) s = .next { buildIfDue s with result := c, err := .checkMismatch, busy := false })

/-- R136: TBLRD on a valid model puts TABLE[i] into RESULT; on a built table that is what R125 computes for index i, in
range, and 0 for index 0. -/
def Obligations.TblrdReturnsTheEntry : Prop :=
  ∀ (s : State) (h i : BitVec 8) (m : Model), NamesModel (buildIfDue s) h m →
    exec (.tblrd h i) s =
      .next { buildIfDue s with result := m.table[i.toNat]'i.isLt, err := .ok, busy := false } ∧
    (m.table = buildTable m.width m.poly m.refin →
      m.table[i.toNat]'i.isLt = tableEntry m.width m.poly m.refin (i.setWidth 64) ∧
      (m.table[i.toNat]'i.isLt) &&& ~~~ mask m.width = 0 ∧ (i = 0 → m.table[i.toNat]'i.isLt = 0))

/-- R138: PARAMRD on a valid model puts the selected field into RESULT, for every assigned selector; name bytes at and
past NAME_LEN read 0. -/
def Obligations.ParamrdReturnsTheField : Prop :=
  ∀ (s : State) (h sel : BitVec 8) (m : Model), NamesModel (buildIfDue s) h m →
    (sel.toNat ≤ 0x06 ∨ 0x80 ≤ sel.toNat) →
    ∃ v, exec (.paramrd h sel) s = .next { buildIfDue s with result := v, err := .ok, busy := false } ∧
      (sel = 0x00 → v = BitVec.ofNat 64 m.width.bits) ∧ (sel = 0x01 → v = m.poly) ∧ (sel = 0x02 → v = m.init) ∧
      (sel = 0x03 → v.getLsbD 0 = m.refin ∧ v.getLsbD 1 = m.refout ∧ v >>> 2 = 0) ∧
      (sel = 0x04 → v = m.xorout) ∧ (sel = 0x05 → v = m.check) ∧
      (sel = 0x06 → v = BitVec.ofNat 64 m.name.length) ∧
      (∀ j b, sel.toNat = 0x80 + j → m.name[j]? = some b → v = b.setWidth 64) ∧
      (∀ j, sel.toNat = 0x80 + j → m.name.length ≤ j → v = 0)

/-- R210, R209: BUILD ends with OK, RESULT unchanged; when it is due every catalog TABLE is built and REGSTATE becomes
READY; when READY it changes nothing but ERR and BUSY. -/
def Obligations.BuildMakesTheCatalogReady : Prop :=
  ∀ s : State,
    (s.registry = .building → ∃ tables,
      exec .build s = .next { s with registry := .ready tables, err := .ok, busy := false } ∧
      tables.length = s.hw.catalog.length ∧
      ∀ (i : Nat) (p : Params), s.hw.catalog[i]? = some p → tables[i]? = some (buildTable p.width p.poly p.refin)) ∧
    (s.registry ≠ .building → exec .build s = .next { s with err := .ok, busy := false })

/-- R212, R207, R213: LOOKUP_PRE ends with NAME_RANGE when L.NAME_LEN exceeds NAME_MAX; else with OK and RESULT 0x100 or'ed
with 0x80 + i for the entry i whose name matches (the lowest such i), 0 when none does; nothing else changes but the build
that was due. -/
def Obligations.LookupPreFindsTheName : Prop :=
  ∀ s : State,
    (s.hw.nameMax < s.pend.args.nameLen.toNat →
      exec .lookupPre s = .next { buildIfDue s with err := .nameRange, busy := false }) ∧
    (s.pend.args.nameLen.toNat ≤ s.hw.nameMax →
      (∀ (i : Nat) (p : Params), s.hw.catalog[i]? = some p → NameMatches s p.name →
        (∀ (j : Nat) (q : Params), j < i → s.hw.catalog[j]? = some q → ¬NameMatches s q.name) →
        exec .lookupPre s = .next { buildIfDue s with
          result := 0x100 ||| BitVec.ofNat 64 (0x80 + i), err := .ok, busy := false }) ∧
      ((∀ p ∈ s.hw.catalog, ¬NameMatches s p.name) →
        exec .lookupPre s = .next { buildIfDue s with result := 0, err := .ok, busy := false }))

/-- R215, R216, R213: LOOKUP_LIST searches the valid user slots of L.SLOT_MASK below N_USER: RESULT is 0x100 or'ed with the
lowest matching slot, 0 when none matches, both with OK; NAME_RANGE when L.NAME_LEN exceeds NAME_MAX. -/
def Obligations.LookupListFindsTheLowestSlot : Prop :=
  ∀ s : State,
    let selected := fun k : BitVec 6 => k.toNat < s.hw.nUser ∧ s.pend.args.slotMask.getLsbD k.toNat = true ∧
      ∃ m, slotAt s k = some m ∧ NameMatches s m.name
    (s.hw.nameMax < s.pend.args.nameLen.toNat →
      exec .lookupList s = .next { buildIfDue s with err := .nameRange, busy := false }) ∧
    (s.pend.args.nameLen.toNat ≤ s.hw.nameMax →
      (∀ k, selected k → (∀ k', k' < k → ¬selected k') →
        exec .lookupList s = .next { buildIfDue s with
          result := 0x100 ||| k.setWidth 64, err := .ok, busy := false }) ∧
      ((∀ k, ¬selected k) →
        exec .lookupList s = .next { buildIfDue s with result := 0, err := .ok, busy := false }))

/-- R130, R132, R128: CFG to an empty user slot, with a name that fits, a width in W and a self-check that passes when
VERIFY = 1, ends with OK and commits the model: name from NBUF, POLY masked, the rest as given, every TABLE entry built.
RESULT changes only with VERIFY = 1, to the self-check value, which is CHECK. No other slot changes. -/
def Obligations.CfgCommitsTheModel : Prop :=
  ∀ (s : State) (h : BitVec 8) (w : Width),
    handleIsCatalog h = false → handleIsVoid h = false → (handleSlot h).toNat < s.hw.nUser →
    slotAt s (handleSlot h) = none → s.pend.args.nameLen.toNat ≤ s.hw.nameMax →
    (s.pend.args.argCfg.extractLsb' 0 8).toNat = w.bits →
    (s.pend.args.argCfg.getLsbD 10 = true →
      selfCheck (construct (cfgParams w s)) = some s.pend.args.argCheck) →
    ∃ t m, exec (.cfg h) s = .next t ∧ slotAt t (handleSlot h) = some m ∧ NameMatches s m.name ∧ m.width = w ∧
      m.poly = s.pend.args.argPoly &&& mask w ∧ m.init = s.pend.args.argInit ∧
      m.refin = s.pend.args.argCfg.getLsbD 8 ∧ m.refout = s.pend.args.argCfg.getLsbD 9 ∧
      m.xorout = s.pend.args.argXorout ∧ m.check = s.pend.args.argCheck ∧
      m.table = buildTable w s.pend.args.argPoly m.refin ∧
      (∀ k, k ≠ handleSlot h → slotAt t k = slotAt s k) ∧
      t.result = (if s.pend.args.argCfg.getLsbD 10 = true then s.pend.args.argCheck else s.result) ∧
      t = { buildIfDue s with slots := t.slots, result := t.result, err := .ok, busy := false }

/-- R130, R131, R132, R95: each way CFG fails, in its order, with no slot changed: BAD_HANDLE, SLOT_IN_USE, NAME_RANGE,
INVALID_PARAMETER for a width not in W, and with VERIFY = 1 REG_RANGE, or CHECK_MISMATCH with the self-check value in
RESULT. -/
def Obligations.CfgFailsWithoutACommit : Prop :=
  ∀ (s : State) (h : BitVec 8),
    let fails := fun c => exec (.cfg h) s = .next { buildIfDue s with err := c, busy := false }
    let named := handleIsCatalog h = false ∧ handleIsVoid h = false ∧ (handleSlot h).toNat < s.hw.nUser
    let fits := s.pend.args.nameLen.toNat ≤ s.hw.nameMax
    let width := fun w : Width => (s.pend.args.argCfg.extractLsb' 0 8).toNat = w.bits
    (¬named → fails .badHandle) ∧
    (named → (∃ m, slotAt s (handleSlot h) = some m) → fails .slotInUse) ∧
    (named → slotAt s (handleSlot h) = none → ¬fits → fails .nameRange) ∧
    (named → slotAt s (handleSlot h) = none → fits → (∀ w, ¬width w) → fails .invalidParameter) ∧
    (∀ w, named → slotAt s (handleSlot h) = none → fits → width w → s.pend.args.argCfg.getLsbD 10 = true →
      (selfCheck (construct (cfgParams w s)) = none → fails .regRange) ∧
      ∀ c, selfCheck (construct (cfgParams w s)) = some c → c ≠ s.pend.args.argCheck →
        exec (.cfg h) s = .next { buildIfDue s with result := c, err := .checkMismatch, busy := false })

/-- R134, R95: RELEASE of a valid user slot ends with OK and empties it, and only it; RESULT stays; of an empty slot it ends
with SLOT_EMPTY, of any other handle with BAD_HANDLE. -/
def Obligations.ReleaseFreesTheSlot : Prop :=
  ∀ (s : State) (h : BitVec 8),
    let named := handleIsCatalog h = false ∧ handleIsVoid h = false ∧ (handleSlot h).toNat < s.hw.nUser
    (named → (∃ m, slotAt s (handleSlot h) = some m) →
      ∃ t, exec (.release h) s = .next t ∧ slotAt t (handleSlot h) = none ∧
        (∀ k, k ≠ handleSlot h → slotAt t k = slotAt s k) ∧
        t = { buildIfDue s with slots := t.slots, err := .ok, busy := false }) ∧
    (named → slotAt s (handleSlot h) = none →
      exec (.release h) s = .next { buildIfDue s with err := .slotEmpty, busy := false }) ∧
    (¬named → exec (.release h) s = .next { buildIfDue s with err := .badHandle, busy := false })

/-! ### The CRC functions -/

/-- R120, R121: bit j of rev_w(v) is bit w-1-j of v below w and bit j of v from w on, at every width; R122: reversal is an
involution on every 64-bit value, with the rule's examples. -/
def Obligations.ReversalIsAnInvolution : Prop :=
  (∀ (w : Width) (v : Word) (j : Nat),
    (j < w.bits → (rev w v).getLsbD j = v.getLsbD (w.bits - 1 - j)) ∧
    (w.bits ≤ j → (rev w v).getLsbD j = v.getLsbD j)) ∧
  (∀ (w : Width) (v : Word), rev w (rev w v) = v) ∧
  rev .w8 0x01 = 0x80 ∧ rev .w16 0x0001 = 0x8000 ∧ rev .w24 0x123456 = 0x6A2C48 ∧
  rev .w32 0x0000FFFF = 0xFFFF0000 ∧ rev .w64 0x1 = 0x8000000000000000 ∧ rev .w16 0x10001 = 0x18000

/-- R126's masked form of the generator: every round masked, no bit above w ever held. -/
def Sys2Proof.maskedEntry (w : Width) (poly : Word) (refin : Bool) (idx : Word) : Word :=
  let p := poly &&& mask w
  let start := if refin then rev w idx else idx <<< (w.bits - 8)
  let e := (List.range 8).foldl (fun (e : Word) _ => ((e <<< 1) &&& mask w) ^^^ (if e.getLsbD (w.bits - 1) then p else 0)) start
  if refin then rev w e else e

/-- R126: the masked form gives the same table. -/
def Obligations.MaskedFormBuildsTheSameTable : Prop :=
  ∀ (w : Width) (poly : Word) (refin : Bool) (i : BitVec 8),
    Table.entry (buildTable w poly refin) i = maskedEntry w poly refin (i.setWidth 64)

/-- R127: the properties (a) to (e) of every table, and the rule's CRC-32 examples. -/
def Obligations.TableProperties : Prop :=
  (∀ (w : Width) (poly : Word) (refin : Bool),
    Table.entry (buildTable w poly refin) 0 = 0 ∧
    (∀ a b, Table.entry (buildTable w poly refin) (a ^^^ b) =
      Table.entry (buildTable w poly refin) a ^^^ Table.entry (buildTable w poly refin) b) ∧
    (poly &&& mask w = 0 → ∀ i, Table.entry (buildTable w poly refin) i = 0)) ∧
  (∀ (w : Width) (poly : Word), Table.entry (buildTable w poly false) 0x01 = poly &&& mask w) ∧
  (∀ (w : Width) (poly : Word), Table.entry (buildTable w poly true) 0x80 = rev w (poly &&& mask w)) ∧
  Table.entry (buildTable .w32 0x04C11DB7 true) 0x01 = 0x77073096 ∧
  Table.entry (buildTable .w32 0x04C11DB7 true) 0x80 = 0xEDB88320 ∧
  Table.entry (buildTable .w32 0x04C11DB7 true) 0xFF = 0x2D02EF8D

/-- R164: for an in-range register the table index of step_N is r[w-1:w-8] ^ b, that of step_R is r[7:0] ^ b; every step's
result is in range; for w = 8 both steps are T[r ^ b] when T is in range. -/
def Obligations.StepIndexAndRange : Prop :=
  ∀ (m : Model) (r : Word) (b : Byte), r &&& ~~~ mask m.width = 0 →
    stepNormal m r b =
      ((r <<< 8) ^^^ Table.entry m.table (r.extractLsb' (m.width.bits - 8) 8 ^^^ b)) &&& mask m.width ∧
    stepReflected m r b = ((r >>> 8) ^^^ Table.entry m.table (r.extractLsb' 0 8 ^^^ b)) &&& mask m.width ∧
    (r >>> (m.width.bits - 8)) ^^^ b.setWidth 64 = (r.extractLsb' (m.width.bits - 8) 8 ^^^ b).setWidth 64 ∧
    stepNormal m r b &&& ~~~ mask m.width = 0 ∧ stepReflected m r b &&& ~~~ mask m.width = 0 ∧
    (m.width = .w8 →
      stepNormal m r b = Table.entry m.table (r.extractLsb' 0 8 ^^^ b) &&& mask m.width ∧
      stepReflected m r b = Table.entry m.table (r.extractLsb' 0 8 ^^^ b) &&& mask m.width)

/-- The classic bit-serial CRC step: eight rounds of polynomial division of the register with the byte XORed in at its
top (REFIN = 0), or on the reversed register with the byte at its bottom (REFIN = 1). -/
def Sys2Proof.divisionByte (m : Model) (r : Word) (b : Byte) : Word :=
  if m.refin then rev m.width (divRounds m.width m.poly 8 (rev m.width (r ^^^ b.setWidth 64))) &&& mask m.width
  else divRounds m.width m.poly 8 (r ^^^ (b.setWidth 64 <<< (m.width.bits - 8))) &&& mask m.width

/-- The table-driven update of R160 to R163 is polynomial division, byte by byte (the glossary's "table-driven algorithm",
R16): on a model with its built table it gives, over any bytes, what the bit-serial steps of R125 give. -/
def Obligations.TableDrivenUpdateIsPolynomialDivision : Prop :=
  ∀ (m : Model) (r : Word) (bytes : List Byte), m.table = buildTable m.width m.poly m.refin →
    m.poly &&& mask m.width = m.poly → r &&& ~~~ mask m.width = 0 →
    updateBytes m r bytes = bytes.foldl (divisionByte m) r

/-- R168 on the commands, on a conforming instance: if UPDATE over n1 + n2 bytes ends with OK, then UPDATE over the first n1 ends with OK, and UPDATE
over the next n2 with REG_IN = its RESULT ends with OK and the RESULT of the one call. -/
def Obligations.ChunkedUpdatesEqualOneUpdate : Prop :=
  ∀ (s : State) (h : BitVec 8) (n1 n2 : BitVec 32) (t : State), s.hw.conforming = true →
    n1.toNat + n2.toNat = s.pend.args.dataLen.toNat →
    exec (.update h) s = .next t → t.err = .ok →
    ∃ t1 t2, exec (.update h) { s with pend := { s.pend with args := { s.pend.args with dataLen := n1 } } } = .next t1 ∧
      t1.err = .ok ∧
      exec (.update h) { s with pend := { s.pend with args := { s.pend.args with
        regIn := t1.result, dataAddr := s.pend.args.dataAddr + n1, dataLen := n2 } } } = .next t2 ∧
      t2.err = .ok ∧ t2.result = t.result

/-- R181: in every state of a run of a conforming instance, once the registry is READY, CHECK on every catalog handle ends
with OK and the entry's check value in RESULT. -/
def Obligations.EveryCatalogEntryPassesCheck : Prop :=
  ∀ (s : State) (h : BitVec 8) (p : Params), Inv s → regstate s.registry = 0b10 → handleIsCatalog h = true →
    s.hw.catalog[(handleEntry h).toNat]? = some p →
    exec (.check h) s = .next { s with result := p.check, err := .ok, busy := false }

/-! ### Invariants and whole-machine rules -/

/-- The invariant of a run (Safety.lean) is kept by every step that gives a next state. -/
def Obligations.StepKeepsTheInvariant : Prop :=
  ∀ s t : State, Inv s → step s = .next t → Inv t

/-- Reset meets the invariant: the reset state of every conforming instance, and `State.reset` itself (whose instance is
the model's choice, log 1, log 2, log 3). -/
def Obligations.ResetMeetsTheInvariant : Prop :=
  (∀ hw : HwConfig, hw.conforming = true → Inv (State.resetOf hw)) ∧ Inv State.reset

/-- R133: while S[k].VALID = 1 no step writes any field of S[k]; a CFG to it ends with SLOT_IN_USE, and only the
completion of a RELEASE of that slot ends its validity, or RESET. -/
def Obligations.ValidSlotsAreImmutable : Prop :=
  (∀ (s t : State) (k : BitVec 6) (m : Model), slotAt s k = some m → step s = .next t →
    slotAt t k = some m ∨
    (slotAt t k = none ∧
      (ResetNext s ∨ (s.busy = true ∧ EngineNext s ∧ ∃ h, decode s.pend.cmd = .ok (.release h) ∧ k = handleSlot h)))) ∧
  ∀ (s : State) (k : BitVec 6) (m : Model), k.toNat < s.hw.nUser → slotAt s k = some m →
    exec (.cfg (userHandle k)) s = .next { buildIfDue s with err := .slotInUse, busy := false }

/-- R208, R27: REGSTATE leaves UNINITIALIZED only at the acceptance of one of the two triggering words, for BUILDING; it
leaves BUILDING only at that command's completion, for READY; it leaves READY, and returns to UNINITIALIZED, only by
RESET. -/
def Obligations.RegstateTransitions : Prop :=
  ∀ s t : State, Inv s → step s = .next t →
    (regstate t.registry = 0b00 ∨ regstate t.registry = 0b01 ∨ regstate t.registry = 0b10) ∧
    (regstate s.registry = 0b00 → regstate t.registry ≠ 0b00 →
      regstate t.registry = 0b01 ∧ s.busy = false ∧ (CmdWriteNext s 0x00000006 ∨ CmdWriteNext s 0x0000000B)) ∧
    (regstate s.registry = 0b00 → s.busy = false →
      (CmdWriteNext s 0x00000006 ∨ CmdWriteNext s 0x0000000B) → regstate t.registry = 0b01) ∧
    (regstate s.registry = 0b01 → regstate t.registry ≠ 0b01 → ¬ResetNext s →
      regstate t.registry = 0b10 ∧ s.busy = true ∧ EngineNext s ∧
        (s.pend.cmd = 0x00000006 ∨ s.pend.cmd = 0x0000000B)) ∧
    (regstate s.registry = 0b01 → EngineNext s → regstate t.registry = 0b10) ∧
    (regstate s.registry = 0b10 → ¬ResetNext s → regstate t.registry = 0b10) ∧
    (regstate s.registry ≠ 0b00 → regstate t.registry = 0b00 → ResetNext s)

/-- R206: once REGSTATE = READY no step but RESET writes any field of any catalog entry: the tables and the constants stay.
The instance itself never changes. -/
def Obligations.ReadyCatalogIsImmutable : Prop :=
  ∀ s t : State, step s = .next t →
    t.hw = s.hw ∧ ∀ tables, s.registry = .ready tables → t.registry = .ready tables ∨ ResetNext s

/-- R269, R36: what the HOST writes to the argument registers while a command is pending does not reach it: the completion
is the same, but for the argument registers themselves. -/
def Obligations.ArgumentWritesDoNotReachThePendingCommand : Prop :=
  ∀ (i : Instr) (s t : State) (a : ArgRegs), exec i s = .next t →
    exec i { s with args := a } = .next { t with args := a }

/-- The buffer bytes a command reads (R62, R63): UPDATE its range of DBUF, the three name commands NBUF[0..NAME_LEN-1]. -/
def Sys2Proof.ReadsByte (i : Instr) (s : State) (off : Nat) : Prop :=
  match i with
  | .update _ => 0x1000 + s.pend.args.dataAddr.toNat ≤ off ∧
      off < 0x1000 + s.pend.args.dataAddr.toNat + s.pend.args.dataLen.toNat
  | .cfg _ | .lookupPre | .lookupList => 0x100 ≤ off ∧ off < 0x100 + s.pend.args.nameLen.toNat
  | .release _ | .init _ | .final _ | .check _ | .tblrd _ _ | .paramrd _ _ | .build => False

/-- R266's last sentence: a HOST write under a pending command to a buffer byte it does not read is harmless: the
completion differs in that byte alone. -/
def Obligations.BufferWritesElsewhereAreHarmless : Prop :=
  ∀ (i : Instr) (s t : State) (off : Nat) (b : Byte), ¬ReadsByte i s off → exec i s = .next t →
    exec i (writeBufferByte off b s) = .next { t with
      mem := (writeBufferByte off b s).mem, raced := (writeBufferByte off b s).raced }

/-- R266, R263 (log 8, log 9): a buffer byte the HOST wrote since the acceptance is seen by the command as a free value;
any other byte as it stands; and a byte nothing has written since reset stands as a free value. -/
def Obligations.UnstableBytesAreFreeValues : Prop :=
  (∀ (s : State) (off : Nat) (b : Byte), s.busy = true →
    commandByte (writeBufferByte off b s) off = Config.racedByte s.draw off) ∧
  (∀ (s : State) (off : Nat), off ∉ s.raced → commandByte s off = bufferByte s off) ∧
  (∀ (c : Cmd) (s : State) (off : Nat), commandByte (accept c s) off = bufferByte s off) ∧
  ∀ (s : State) (off : Nat), (∀ b, (off, b) ∉ s.mem) → bufferByte s off = Config.unwrittenByte s.epoch off

/-- R260, R261: RESET, also with a command pending, sets in one step every register to its reset value, empties PEND,
every slot and the registry, and leaves every buffer byte unwritten; the instance stays. -/
def Obligations.ResetClearsTheMachine : Prop :=
  ∀ s : State, ResetNext s → ∃ t, step s = .next t ∧ t.hw = s.hw ∧ statusWord t = 0 ∧ t.busy = false ∧
    t.result = 0 ∧ (∀ r ∈ argumentRegisters, readAt r.1 8 t = 0) ∧ (∀ k, slotAt t k = none) ∧
    t.registry = .uninitialized ∧ (∀ off, Memory.read t.mem off = none) ∧ t.inputs = s.inputs.tail

/-- What the HOST reads after reset of the example instance (95_test_vectors.md 2.8): the registers, and HWCFG. -/
def Obligations.ResetRegistersRead : Prop :=
  (∀ off ∈ [0x00, 0x08, 0x10, 0x18, 0x20, 0x28, 0x30, 0x38, 0x40, 0x48, 0x50, 0x58, 0x60], readAt off 8 State.reset = 0) ∧
  readAt 0x68 8 State.reset = 0x0000100000200610

/-- R246: when not BUSY the ENGINE does nothing. -/
def Obligations.IdleEngineDoesNothing : Prop :=
  ∀ s : State, s.busy = false → EngineNext s → step s = .next (popped s)
end

