-- ==== Sys2Proof/Laws/Bits.lean ====
section
/-! SUPPORT. The laws of the bit utilities: masks, ranges and reversal, bit by bit. -/

namespace Sys2Proof.Machine

open Sys2Proof

theorem Width.bits_pos (w : Width) : 0 < w.bits := by cases w <;> decide

theorem Width.eight_le_bits (w : Width) : 8 ≤ w.bits := by cases w <;> decide

theorem Width.bits_le (w : Width) : w.bits ≤ 64 := by cases w <;> decide

theorem Width.bits_even (w : Width) : w.bits / 2 + w.bits / 2 = w.bits := by cases w <;> decide

/-- `mask_w` (R14), bit by bit. -/
theorem mask_getLsbD (w : Width) (i : Nat) : (mask w).getLsbD i = decide (i < w.bits) := by
  have hw := Width.bits_le w
  simp only [mask, BitVec.getLsbD_ofNat, Nat.testBit_two_pow_sub_one]
  by_cases h : i < w.bits <;> simp [h]
  omega

/-- Masking twice is masking once. -/
@[simp] theorem and_mask_and_mask (w : Width) (v : Word) : v &&& mask w &&& mask w = v &&& mask w := by
  rw [BitVec.and_assoc, BitVec.and_self]

/-- A value is in range (R17) when masking leaves it. -/
theorem inRange_iff (w : Width) (r : Word) : inRange w r = true ↔ r &&& mask w = r := by
  simp only [inRange, beq_iff_eq]
  constructor
  · intro h
    ext i hi
    have := congrArg (fun v => v.getLsbD i) h
    simp at this ⊢
    grind
  · intro h
    rw [← h, BitVec.and_assoc, BitVec.and_not_self]
    exact BitVec.and_zero

/-- In range, bit by bit: no bit at or above the width. -/
theorem inRange_iff_getLsbD (w : Width) (r : Word) :
    inRange w r = true ↔ ∀ i, w.bits ≤ i → r.getLsbD i = false := by
  rw [inRange_iff]
  constructor
  · intro h i hi
    rw [← h, BitVec.getLsbD_and, mask_getLsbD]
    simp; omega
  · intro h
    apply BitVec.eq_of_getLsbD_eq
    intro i _
    rw [BitVec.getLsbD_and, mask_getLsbD]
    by_cases hi : i < w.bits
    · simp [hi]
    · simp [h i (by omega)]

@[simp] theorem inRange_and_mask (w : Width) (v : Word) : inRange w (v &&& mask w) = true := by
  simp [inRange_iff]

/-- Setting a bit, bit by bit. -/
theorem setBit_getLsbD (v : Word) (i j : Nat) (b : Bool) (hi : i < 64) :
    (setBit v i b).getLsbD j = if j = i then b else v.getLsbD j := by
  unfold setBit
  by_cases hj : j < 64
  · cases b <;> by_cases h : j = i <;> simp [h, hj, hi] <;> grind
  · have : j ≠ i := by omega
    have hv : ∀ u : Word, u.getLsbD j = false := fun u => BitVec.getLsbD_of_ge u j (by omega)
    simp [this, hv]

/-- The bits of R120's loop after `n` of its swaps. -/
theorem rev_loop_getLsbD (w : Width) (v : Word) (n : Nat) (hn : n ≤ w.bits / 2) (j : Nat) :
    ((List.range n).foldl (revSwap w v) v).getLsbD j =
      if j < w.bits ∧ (j < n ∨ w.bits - 1 - j < n) then v.getLsbD (w.bits - 1 - j) else v.getLsbD j := by
  have hw := Width.bits_le w
  have he := Width.bits_even w
  induction n with
  | zero => simp
  | succ n ih =>
    rw [List.range_succ, List.foldl_append]
    simp only [List.foldl_cons, List.foldl_nil, revSwap]
    rw [setBit_getLsbD _ _ _ _ (by omega), setBit_getLsbD _ _ _ _ (by omega), ih (by omega)]
    by_cases h1 : j = w.bits - 1 - n
    · have : w.bits - 1 - j = n := by omega
      rw [if_pos h1, if_pos (by omega), this]
    · by_cases h2 : j = n
      · rw [if_neg h1, if_pos h2, if_pos (by omega), h2]
      · rw [if_neg h1, if_neg h2]
        congr 1
        simp only [eq_iff_iff]
        omega

/-- `rev_w`, bit by bit (R120, R121). -/
theorem rev_getLsbD (w : Width) (v : Word) (j : Nat) :
    (rev w v).getLsbD j = if j < w.bits then v.getLsbD (w.bits - 1 - j) else v.getLsbD j := by
  have he := Width.bits_even w
  rw [rev, rev_loop_getLsbD w v _ (Nat.le_refl _)]
  congr 1
  simp only [eq_iff_iff]
  omega

/-- Reversal is linear. -/
theorem rev_xor (w : Width) (a b : Word) : rev w (a ^^^ b) = rev w a ^^^ rev w b := by
  apply BitVec.eq_of_getLsbD_eq
  intro i _
  simp only [rev_getLsbD, BitVec.getLsbD_xor]
  split <;> rfl

/-- Reversal moves no bit across the width. -/
theorem rev_and_mask (w : Width) (v : Word) : rev w (v &&& mask w) = rev w v &&& mask w := by
  have hp := Width.bits_pos w
  apply BitVec.eq_of_getLsbD_eq
  intro i _
  simp only [rev_getLsbD, BitVec.getLsbD_and, mask_getLsbD]
  split <;> simp_all
  omega

/-- The reversal of an in-range value is in range. -/
theorem inRange_rev (w : Width) (v : Word) (h : inRange w v = true) : inRange w (rev w v) = true := by
  rw [inRange_iff] at h ⊢
  rw [← rev_and_mask, h]

/-- The number of a width, found again (R7). -/
theorem widthOf_bits (w : Width) : widthOf (BitVec.ofNat 8 w.bits) = some w := by cases w <;> decide

end Sys2Proof.Machine
end

