-- ==== Sys2Proof/Laws/Crc.lean ====
section
/-! SUPPORT. The laws of the table generator and of the update engine's functions. -/

namespace Sys2Proof.Machine

open Sys2Proof

/-- One round of the division is linear once the branch is written as a product (R127). -/
theorem divRound_xor (w : Width) (p a b : Word) :
    divRound w p (a ^^^ b) = divRound w p a ^^^ divRound w p b := by
  simp only [divRound, BitVec.getLsbD_xor, BitVec.shiftLeft_xor_distrib]
  cases a.getLsbD (w.bits - 1) <;> cases b.getLsbD (w.bits - 1) <;> simp <;>
    (apply BitVec.eq_of_getLsbD_eq; intro i _; simp only [BitVec.getLsbD_xor]; grind)

theorem divRounds_xor (w : Width) (p : Word) (n : Nat) (a b : Word) :
    divRounds w p n (a ^^^ b) = divRounds w p n a ^^^ divRounds w p n b := by
  induction n generalizing a b with
  | zero => rfl
  | succ n ih => simp only [divRounds, divRound_xor, ih]

/-- Entry `i` of a built table is R125's value for the index i. -/
theorem entry_buildTable (w : Width) (poly : Word) (refin : Bool) (i : BitVec 8) :
    Table.entry (buildTable w poly refin) i = tableEntry w poly refin (i.setWidth 64) := by
  have h : BitVec.ofNat 64 i.toNat = i.setWidth 64 := by
    apply BitVec.eq_of_toNat_eq
    simp
  simp [Table.entry, buildTable, h]

/-- Of `poly` only the masked bits count (R124). -/
@[simp] theorem buildTable_and_mask (w : Width) (poly : Word) (refin : Bool) :
    buildTable w (poly &&& mask w) refin = buildTable w poly refin := by
  simp [buildTable, tableEntry]

/-- Every entry a table is built with is in range (R40). -/
theorem inRange_tableEntry (w : Width) (poly : Word) (refin : Bool) (idx : Word) :
    inRange w (tableEntry w poly refin idx) = true := by
  simp [tableEntry]

@[simp] theorem construct_name (p : Params) : (construct p).name = p.name := rfl
@[simp] theorem construct_width (p : Params) : (construct p).width = p.width := rfl
@[simp] theorem construct_poly (p : Params) : (construct p).poly = p.poly &&& mask p.width := rfl
@[simp] theorem construct_init (p : Params) : (construct p).init = p.init := rfl
@[simp] theorem construct_refin (p : Params) : (construct p).refin = p.refin := rfl
@[simp] theorem construct_refout (p : Params) : (construct p).refout = p.refout := rfl
@[simp] theorem construct_xorout (p : Params) : (construct p).xorout = p.xorout := rfl
@[simp] theorem construct_check (p : Params) : (construct p).check = p.check := rfl
@[simp] theorem construct_table (p : Params) : (construct p).table = buildTable p.width p.poly p.refin := rfl

/-- A catalog entry with its built table is the constructed model (R39, R209). -/
theorem catalogModel_built (p : Params) : catalogModel p (buildTable p.width p.poly p.refin) = construct p := rfl

@[simp] theorem catalogTables_length (catalog : List Params) : (catalogTables catalog).length = catalog.length := by
  simp [catalogTables]

theorem catalogTables_getElem? (catalog : List Params) (i : Nat) :
    (catalogTables catalog)[i]? = (catalog[i]?).map fun p => buildTable p.width p.poly p.refin := by
  simp [catalogTables]

/-- Every step of the update engine masks to the width (R160, R161). -/
theorem inRange_updateByte (m : Model) (r : Word) (b : Byte) : inRange m.width (updateByte m r b) = true := by
  unfold updateByte
  split <;> simp [stepNormal, stepReflected]

theorem inRange_updateBytes (m : Model) (r : Word) (bs : List Byte) (h : inRange m.width r = true) :
    inRange m.width (updateBytes m r bs) = true := by
  induction bs generalizing r with
  | nil => exact h
  | cons b bs ih => exact ih _ (inRange_updateByte m r b)

/-- Finalisation masks to the width (R172). -/
theorem inRange_finalReg (m : Model) (r : Word) : inRange m.width (finalReg m r) = true := by
  simp [finalReg]

/-- A self-check value is in range (R178). -/
theorem inRange_selfCheck (m : Model) (c : Word) (h : selfCheck m = some c) : inRange m.width c = true := by
  unfold selfCheck at h
  split at h
  · cases h
    exact inRange_finalReg _ _
  · cases h

end Sys2Proof.Machine
end

