-- ==== Sys2Proof/Laws/State.lean ====
section
/-! SUPPORT. One lemma per field per named update of State, so that no later proof unfolds a record update. -/

namespace Sys2Proof.Machine

open Sys2Proof

/-! ### writeBufferByte -/

@[simp] theorem writeBufferByte_hw (off : Nat) (b : Byte) (s : State) : (writeBufferByte off b s).hw = s.hw := rfl

@[simp] theorem writeBufferByte_busy (off : Nat) (b : Byte) (s : State) : (writeBufferByte off b s).busy = s.busy := rfl

@[simp] theorem writeBufferByte_overrun (off : Nat) (b : Byte) (s : State) : (writeBufferByte off b s).overrun = s.overrun := rfl

@[simp] theorem writeBufferByte_registry (off : Nat) (b : Byte) (s : State) : (writeBufferByte off b s).registry = s.registry := rfl

@[simp] theorem writeBufferByte_err (off : Nat) (b : Byte) (s : State) : (writeBufferByte off b s).err = s.err := rfl

@[simp] theorem writeBufferByte_result (off : Nat) (b : Byte) (s : State) : (writeBufferByte off b s).result = s.result := rfl

@[simp] theorem writeBufferByte_args (off : Nat) (b : Byte) (s : State) : (writeBufferByte off b s).args = s.args := rfl

@[simp] theorem writeBufferByte_pend (off : Nat) (b : Byte) (s : State) : (writeBufferByte off b s).pend = s.pend := rfl

@[simp] theorem writeBufferByte_slots (off : Nat) (b : Byte) (s : State) : (writeBufferByte off b s).slots = s.slots := rfl

@[simp] theorem writeBufferByte_mem (off : Nat) (b : Byte) (s : State) : (writeBufferByte off b s).mem = Memory.write s.mem off b := rfl

@[simp] theorem writeBufferByte_raced (off : Nat) (b : Byte) (s : State) : (writeBufferByte off b s).raced = if s.busy then insertRising off s.raced else s.raced := rfl

@[simp] theorem writeBufferByte_draw (off : Nat) (b : Byte) (s : State) : (writeBufferByte off b s).draw = s.draw := rfl

@[simp] theorem writeBufferByte_epoch (off : Nat) (b : Byte) (s : State) : (writeBufferByte off b s).epoch = s.epoch := rfl

@[simp] theorem writeBufferByte_inputs (off : Nat) (b : Byte) (s : State) : (writeBufferByte off b s).inputs = s.inputs := rfl

@[simp] theorem writeBufferByte_resp (off : Nat) (b : Byte) (s : State) : (writeBufferByte off b s).resp = s.resp := rfl

/-! ### setSlot -/

@[simp] theorem setSlot_hw (k : BitVec 6) (v : Option Model) (s : State) : (setSlot k v s).hw = s.hw := rfl

@[simp] theorem setSlot_busy (k : BitVec 6) (v : Option Model) (s : State) : (setSlot k v s).busy = s.busy := rfl

@[simp] theorem setSlot_overrun (k : BitVec 6) (v : Option Model) (s : State) : (setSlot k v s).overrun = s.overrun := rfl

@[simp] theorem setSlot_registry (k : BitVec 6) (v : Option Model) (s : State) : (setSlot k v s).registry = s.registry := rfl

@[simp] theorem setSlot_err (k : BitVec 6) (v : Option Model) (s : State) : (setSlot k v s).err = s.err := rfl

@[simp] theorem setSlot_result (k : BitVec 6) (v : Option Model) (s : State) : (setSlot k v s).result = s.result := rfl

@[simp] theorem setSlot_args (k : BitVec 6) (v : Option Model) (s : State) : (setSlot k v s).args = s.args := rfl

@[simp] theorem setSlot_pend (k : BitVec 6) (v : Option Model) (s : State) : (setSlot k v s).pend = s.pend := rfl

@[simp] theorem setSlot_slots (k : BitVec 6) (v : Option Model) (s : State) : (setSlot k v s).slots = s.slots.set k.toNat v k.isLt := rfl

@[simp] theorem setSlot_mem (k : BitVec 6) (v : Option Model) (s : State) : (setSlot k v s).mem = s.mem := rfl

@[simp] theorem setSlot_raced (k : BitVec 6) (v : Option Model) (s : State) : (setSlot k v s).raced = s.raced := rfl

@[simp] theorem setSlot_draw (k : BitVec 6) (v : Option Model) (s : State) : (setSlot k v s).draw = s.draw := rfl

@[simp] theorem setSlot_epoch (k : BitVec 6) (v : Option Model) (s : State) : (setSlot k v s).epoch = s.epoch := rfl

@[simp] theorem setSlot_inputs (k : BitVec 6) (v : Option Model) (s : State) : (setSlot k v s).inputs = s.inputs := rfl

@[simp] theorem setSlot_resp (k : BitVec 6) (v : Option Model) (s : State) : (setSlot k v s).resp = s.resp := rfl

/-! ### accept -/

@[simp] theorem accept_hw (c : Cmd) (s : State) : (accept c s).hw = s.hw := rfl

@[simp] theorem accept_busy (c : Cmd) (s : State) : (accept c s).busy = true := rfl

@[simp] theorem accept_overrun (c : Cmd) (s : State) : (accept c s).overrun = s.overrun := rfl

@[simp] theorem accept_registry (c : Cmd) (s : State) : (accept c s).registry = registryAtAcceptance c s.registry := rfl

@[simp] theorem accept_err (c : Cmd) (s : State) : (accept c s).err = s.err := rfl

@[simp] theorem accept_result (c : Cmd) (s : State) : (accept c s).result = s.result := rfl

@[simp] theorem accept_args (c : Cmd) (s : State) : (accept c s).args = s.args := rfl

@[simp] theorem accept_pend (c : Cmd) (s : State) : (accept c s).pend = { cmd := c, args := s.args } := rfl

@[simp] theorem accept_slots (c : Cmd) (s : State) : (accept c s).slots = s.slots := rfl

@[simp] theorem accept_mem (c : Cmd) (s : State) : (accept c s).mem = s.mem := rfl

@[simp] theorem accept_raced (c : Cmd) (s : State) : (accept c s).raced = [] := rfl

@[simp] theorem accept_draw (c : Cmd) (s : State) : (accept c s).draw = s.draw + 1 := rfl

@[simp] theorem accept_epoch (c : Cmd) (s : State) : (accept c s).epoch = s.epoch := rfl

@[simp] theorem accept_inputs (c : Cmd) (s : State) : (accept c s).inputs = s.inputs := rfl

@[simp] theorem accept_resp (c : Cmd) (s : State) : (accept c s).resp = s.resp := rfl

/-! ### assertReset -/

@[simp] theorem assertReset_hw (s : State) : (assertReset s).hw = s.hw := rfl

@[simp] theorem assertReset_busy (s : State) : (assertReset s).busy = false := rfl

@[simp] theorem assertReset_overrun (s : State) : (assertReset s).overrun = false := rfl

@[simp] theorem assertReset_registry (s : State) : (assertReset s).registry = .uninitialized := rfl

@[simp] theorem assertReset_err (s : State) : (assertReset s).err = .ok := rfl

@[simp] theorem assertReset_result (s : State) : (assertReset s).result = 0 := rfl

@[simp] theorem assertReset_args (s : State) : (assertReset s).args = ArgRegs.zero := rfl

@[simp] theorem assertReset_pend (s : State) : (assertReset s).pend = { cmd := 0, args := ArgRegs.zero } := rfl

@[simp] theorem assertReset_slots (s : State) : (assertReset s).slots = Vector.replicate 64 none := rfl

@[simp] theorem assertReset_mem (s : State) : (assertReset s).mem = [] := rfl

@[simp] theorem assertReset_raced (s : State) : (assertReset s).raced = [] := rfl

@[simp] theorem assertReset_draw (s : State) : (assertReset s).draw = s.draw := rfl

@[simp] theorem assertReset_epoch (s : State) : (assertReset s).epoch = s.epoch + 1 := rfl

@[simp] theorem assertReset_inputs (s : State) : (assertReset s).inputs = s.inputs := rfl

@[simp] theorem assertReset_resp (s : State) : (assertReset s).resp = .idle := rfl

/-! ### withCommand -/

@[simp] theorem withCommand_hw (c : Cmd) (s : State) : (withCommand c s).hw = s.hw := rfl

@[simp] theorem withCommand_busy (c : Cmd) (s : State) : (withCommand c s).busy = true := rfl

@[simp] theorem withCommand_overrun (c : Cmd) (s : State) : (withCommand c s).overrun = s.overrun := rfl

@[simp] theorem withCommand_registry (c : Cmd) (s : State) : (withCommand c s).registry = registryAtAcceptance c s.registry := rfl

@[simp] theorem withCommand_err (c : Cmd) (s : State) : (withCommand c s).err = s.err := rfl

@[simp] theorem withCommand_result (c : Cmd) (s : State) : (withCommand c s).result = s.result := rfl

@[simp] theorem withCommand_args (c : Cmd) (s : State) : (withCommand c s).args = s.args := rfl

@[simp] theorem withCommand_pend (c : Cmd) (s : State) : (withCommand c s).pend = { cmd := c, args := s.args } := rfl

@[simp] theorem withCommand_slots (c : Cmd) (s : State) : (withCommand c s).slots = s.slots := rfl

@[simp] theorem withCommand_mem (c : Cmd) (s : State) : (withCommand c s).mem = s.mem := rfl

@[simp] theorem withCommand_raced (c : Cmd) (s : State) : (withCommand c s).raced = [] := rfl

@[simp] theorem withCommand_draw (c : Cmd) (s : State) : (withCommand c s).draw = s.draw + 1 := rfl

@[simp] theorem withCommand_epoch (c : Cmd) (s : State) : (withCommand c s).epoch = s.epoch := rfl

@[simp] theorem withCommand_inputs (c : Cmd) (s : State) : (withCommand c s).inputs = .engine :: s.inputs := rfl

@[simp] theorem withCommand_resp (c : Cmd) (s : State) : (withCommand c s).resp = s.resp := rfl

/-! ### buildIfDue -/

/-- The registry after the build of R209. -/
def builtRegistry (hw : HwConfig) (r : Registry) : Registry :=
  match r with
  | .building => .ready (catalogTables hw.catalog)
  | .uninitialized => .uninitialized
  | .ready tables => .ready tables

/-- Everything the build can do: it writes the registry and nothing else. -/
theorem buildIfDue_eq (s : State) : buildIfDue s = { s with registry := builtRegistry s.hw s.registry } := by
  cases s with
  | mk hw busy overrun registry => cases registry <;> rfl

@[simp] theorem buildIfDue_hw (s : State) : (buildIfDue s).hw = s.hw := by
  rw [buildIfDue_eq]

@[simp] theorem buildIfDue_busy (s : State) : (buildIfDue s).busy = s.busy := by
  rw [buildIfDue_eq]

@[simp] theorem buildIfDue_overrun (s : State) : (buildIfDue s).overrun = s.overrun := by
  rw [buildIfDue_eq]

@[simp] theorem buildIfDue_registry (s : State) : (buildIfDue s).registry = builtRegistry s.hw s.registry := by
  rw [buildIfDue_eq]

@[simp] theorem buildIfDue_err (s : State) : (buildIfDue s).err = s.err := by
  rw [buildIfDue_eq]

@[simp] theorem buildIfDue_result (s : State) : (buildIfDue s).result = s.result := by
  rw [buildIfDue_eq]

@[simp] theorem buildIfDue_args (s : State) : (buildIfDue s).args = s.args := by
  rw [buildIfDue_eq]

@[simp] theorem buildIfDue_pend (s : State) : (buildIfDue s).pend = s.pend := by
  rw [buildIfDue_eq]

@[simp] theorem buildIfDue_slots (s : State) : (buildIfDue s).slots = s.slots := by
  rw [buildIfDue_eq]

@[simp] theorem buildIfDue_mem (s : State) : (buildIfDue s).mem = s.mem := by
  rw [buildIfDue_eq]

@[simp] theorem buildIfDue_raced (s : State) : (buildIfDue s).raced = s.raced := by
  rw [buildIfDue_eq]

@[simp] theorem buildIfDue_draw (s : State) : (buildIfDue s).draw = s.draw := by
  rw [buildIfDue_eq]

@[simp] theorem buildIfDue_epoch (s : State) : (buildIfDue s).epoch = s.epoch := by
  rw [buildIfDue_eq]

@[simp] theorem buildIfDue_inputs (s : State) : (buildIfDue s).inputs = s.inputs := by
  rw [buildIfDue_eq]

@[simp] theorem buildIfDue_resp (s : State) : (buildIfDue s).resp = s.resp := by
  rw [buildIfDue_eq]

/-- A registry that is not BUILDING is left as it is (R96). -/
theorem buildIfDue_of_not_building (s : State) (h : s.registry ≠ .building) : buildIfDue s = s := by
  unfold buildIfDue
  split
  · contradiction
  · rfl
  · rfl

@[simp] theorem builtRegistry_ready (hw : HwConfig) (ts : List Table) : builtRegistry hw (.ready ts) = .ready ts := rfl
@[simp] theorem builtRegistry_building (hw : HwConfig) :
    builtRegistry hw .building = .ready (catalogTables hw.catalog) := rfl
@[simp] theorem builtRegistry_uninitialized (hw : HwConfig) :
    builtRegistry hw .uninitialized = .uninitialized := rfl

@[simp] theorem builtRegistry_ne_building (hw : HwConfig) (r : Registry) : builtRegistry hw r ≠ .building := by
  cases r <;> simp

/-- The build runs once: after it none is due. -/
@[simp] theorem buildIfDue_buildIfDue (s : State) : buildIfDue (buildIfDue s) = buildIfDue s :=
  buildIfDue_of_not_building _ (by simp)

/-! ### slots -/

@[simp] theorem slotAt_setSlot_same (k : BitVec 6) (v : Option Model) (s : State) : slotAt (setSlot k v s) k = v := by
  simp [slotAt]

@[simp] theorem slotAt_setSlot_other (k k' : BitVec 6) (v : Option Model) (s : State) (h : k' ≠ k) :
    slotAt (setSlot k v s) k' = slotAt s k' := by
  have hne : k.toNat ≠ k'.toNat := fun e => h (BitVec.eq_of_toNat_eq e.symm)
  simp [slotAt, hne]

@[simp] theorem slotAt_buildIfDue (s : State) (k : BitVec 6) : slotAt (buildIfDue s) k = slotAt s k := by
  simp [slotAt]

@[simp] theorem slotAt_resetOf (hw : HwConfig) (k : BitVec 6) : slotAt (State.resetOf hw) k = none := by
  simp [slotAt, State.resetOf]

@[simp] theorem slotAt_assertReset (s : State) (k : BitVec 6) : slotAt (assertReset s) k = none := by
  simp [slotAt]

/-- What a slot holds after a slot is set: the new contents there, the old ones elsewhere. -/
theorem slotAt_setSlot (k k' : BitVec 6) (v : Option Model) (s : State) :
    slotAt (setSlot k v s) k' = if k' = k then v else slotAt s k' := by
  simp only [slotAt, setSlot, Vector.getElem_set]
  by_cases e : k' = k
  · simp [e]
  · rw [if_neg e, if_neg fun h => e (BitVec.eq_of_toNat_eq h.symm)]

/-- Only the slot field decides what a slot holds. -/
theorem slotAt_congr {s t : State} (h : t.slots = s.slots) (k : BitVec 6) : slotAt t k = slotAt s k := by
  simp only [slotAt, h]

end Sys2Proof.Machine
end

