-- ==== Sys2Proof/Laws/Commands.lean ====
section
/-! SUPPORT. What the operand forms and the commands can do, said once each. -/

namespace Sys2Proof.Machine

open Sys2Proof

/-! ### finish, raise -/

theorem finish_eq (c : Code) (s : State) : finish c s = .next { s with err := c, busy := false } := rfl

theorem raise_eq (c : Code) (s : State) : raise c s = .next { s with err := c, busy := false } := rfl

theorem finishWith_eq (v : Word) (c : Code) (s : State) :
    finishWith v c s = .next { s with result := v, err := c, busy := false } := rfl

/-! ### handles -/

/-- When CFG's and RELEASE's handle names a user slot (R94, R95). -/
theorem userSlot_eq_ok (hw : HwConfig) (h : BitVec 8) (k : BitVec 6) :
    userSlot hw h = .ok k ↔
      handleIsCatalog h = false ∧ handleIsVoid h = false ∧ k = handleSlot h ∧ (handleSlot h).toNat < hw.nUser := by
  unfold userSlot
  cases handleIsCatalog h <;> cases handleIsVoid h <;> simp
  split <;> simp_all [eq_comm]

/-- A handle that names no user slot ends with BAD_HANDLE and no other code (R95). -/
theorem userSlot_error (hw : HwConfig) (h : BitVec 8) (c : Code) (e : userSlot hw h = .error c) : c = .badHandle := by
  unfold userSlot at e
  split at e
  · cases e; rfl
  · split at e
    · cases e; rfl
    · split at e <;> cases e; rfl

/-- The handle check passes exactly on the handles that name a valid model (R94, R95). -/
theorem namedModel_eq_ok (h : BitVec 8) (s : State) (m : Model) : namedModel h s = .ok m ↔ NamesModel s h m := by
  unfold namedModel NamesModel
  cases h7 : handleIsCatalog h
  · simp only [Bool.false_eq_true, false_and, false_or, if_false, true_and]
    cases hu : userSlot s.hw h with
    | error c =>
      have hn : ∀ k, userSlot s.hw h ≠ .ok k := by simp [hu]
      simp only [ne_eq, userSlot_eq_ok, not_and] at hn
      constructor
      · nofun
      · rintro ⟨h6, hk, -⟩
        exact absurd hk (hn _ h7 h6 rfl)
    | ok k =>
      obtain ⟨-, h6, rfl, hk⟩ := (userSlot_eq_ok s.hw h k).1 hu
      cases hs : slotAt s (handleSlot h) <;> simp [h6, hk, hs]
  · simp only [Bool.true_eq_false, false_and, or_false, if_true, true_and]
    cases hp : s.hw.catalog[(handleEntry h).toNat]? with
    | none => simp
    | some p =>
      cases hr : s.registry with
      | uninitialized => simp [catalogTableAt]
      | building => simp [catalogTableAt]
      | ready ts =>
        simp only [catalogTableAt, Option.some.injEq, Registry.ready.injEq]
        cases ht : ts[(handleEntry h).toNat]? with
        | none =>
          constructor
          · nofun
          · rintro ⟨_, _, _, -, rfl, h2, -⟩
            rw [ht] at h2
            cases h2
        | some t =>
          constructor
          · intro e
            cases e
            exact ⟨p, t, ts, rfl, rfl, ht, rfl⟩
          · rintro ⟨_, _, _, rfl, rfl, h2, rfl⟩
            rw [ht] at h2
            cases h2
            rfl

/-- A handle check that fails ends with one of four codes (R95). -/
theorem namedModel_error (h : BitVec 8) (s : State) (c : Code) (e : namedModel h s = .error c) :
    c = .badHandle ∨ c = .notReady ∨ c = .slotEmpty := by
  unfold namedModel at e
  split at e
  · split at e
    · cases e; simp
    · split at e <;> cases e; simp
  · split at e
    · rename_i hu
      cases e
      simp [userSlot_error _ _ _ hu]
    · split at e <;> cases e; simp

/-- A command on a model runs its rule after the build, on the model the handle names (R96). -/
theorem withModel_of_names (h : BitVec 8) (s : State) (m : Model) (body : Model → State → Outcome)
    (hm : NamesModel (buildIfDue s) h m) : withModel h s body = body m (buildIfDue s) := by
  simp [withModel, (namedModel_eq_ok h _ m).2 hm]

/-- All a command on a model can do: the handle check ends it with an error, or the rule runs on a named model. -/
theorem withModel_cases (h : BitVec 8) (s : State) (body : Model → State → Outcome) :
    (∃ c, (c ≠ .ok ∧ c ≠ .checkMismatch ∧ c ≠ .illegalCommand) ∧ withModel h s body = raise c (buildIfDue s)) ∨
    (∃ m, NamesModel (buildIfDue s) h m ∧ withModel h s body = body m (buildIfDue s)) := by
  unfold withModel
  cases hm : namedModel h (buildIfDue s) with
  | error c =>
    refine .inl ⟨c, ?_, rfl⟩
    rcases namedModel_error _ _ _ hm with rfl | rfl | rfl <;> simp
  | ok m => exact .inr ⟨m, (namedModel_eq_ok h _ m).1 hm, rfl⟩

/-! ### all a completion can do -/

/-- How the completion of a legal command on a state ends: nothing but a code (R234); RESULT with OK or
CHECK_MISMATCH; a slot filled by CFG (RESULT too when VERIFY = 1); a slot freed by RELEASE; OK alone (BUILD). -/
inductive Completion (i : Instr) (s : State) : Outcome → Prop
  | illegal (h : i.wf = false) : Completion i s (raise .illegalCommand s)
  | error (c : Code) (h : c ≠ .ok ∧ c ≠ .checkMismatch ∧ c ≠ .illegalCommand) (hi : i ≠ .build) :
      Completion i s (raise c (buildIfDue s))
  | result (v : Word) (c : Code) (h : c = .ok ∨ c = .checkMismatch) (hi : i ≠ .build ∧ ∀ h, i ≠ .release h) :
      Completion i s (finishWith v c (buildIfDue s))
  | filled (h : BitVec 8) (k : BitVec 6) (w : Width) (hi : i = .cfg h) (hk : userSlot s.hw h = .ok k)
      (he : slotAt s k = none) (hn : s.pend.args.nameLen.toNat ≤ s.hw.nameMax) (v : Word)
      (hv : cfgVerify s.pend.args = false → v = s.result) :
      Completion i s (finishWith v .ok (setSlot k (some (construct (cfgParams w s))) (buildIfDue s)))
  | freed (h : BitVec 8) (k : BitVec 6) (m : Model) (hi : i = .release h) (hk : userSlot s.hw h = .ok k)
      (he : slotAt s k = some m) : Completion i s (finish .ok (setSlot k none (buildIfDue s)))
  | done (hi : i = .build) : Completion i s (finish .ok (buildIfDue s))

/-- The buffers are seen alike before and after the build. -/
@[simp] theorem commandByte_buildIfDue (s : State) (off : Nat) :
    commandByte (buildIfDue s) off = commandByte s off := by
  simp [commandByte, bufferByte]

@[simp] theorem nameOperand_buildIfDue (s : State) : nameOperand (buildIfDue s) = nameOperand s := by
  simp [nameOperand]

@[simp] theorem dataOperand_buildIfDue (s : State) : dataOperand (buildIfDue s) = dataOperand s := by
  simp [dataOperand]

@[simp] theorem cfgParams_buildIfDue (w : Width) (s : State) : cfgParams w (buildIfDue s) = cfgParams w s := by
  simp [cfgParams]

theorem slotMatches_buildIfDue (s : State) : slotMatches (buildIfDue s) = slotMatches s := by
  funext q k
  simp [slotMatches]

@[simp] theorem slotMatch_buildIfDue (s : State) (q : List Byte) : slotMatch (buildIfDue s) q = slotMatch s q := by
  simp [slotMatch, slotMatches_buildIfDue]

/-- The name a query matches is the name operand (R207). -/
theorem nameMatches_iff (s : State) (n : List Byte) : NameMatches s n ↔ n = nameOperand s := by
  unfold NameMatches nameOperand nbufOffset
  constructor
  · rintro ⟨h1, h2⟩
    apply List.ext_getElem?
    intro j
    by_cases hj : j < s.pend.args.nameLen.toNat
    · rw [h2 j hj]
      simp [hj]
    · rw [List.getElem?_eq_none (by omega), List.getElem?_eq_none (by simp; omega)]
  · rintro rfl
    exact ⟨by simp, fun j hj => by simp [hj]⟩

theorem lookupBy_cases (i : Instr) (s : State) (search : List Byte → Option Nat)
    (hi : i ≠ .build ∧ ∀ h, i ≠ .release h) :
    Completion i s (lookupBy search (buildIfDue s)) := by
  unfold lookupBy
  split
  · exact .error _ (by simp) hi.1
  · unfold finishLookup
    split
    · exact .result _ _ (.inl rfl) hi
    · exact .result _ _ (.inl rfl) hi

theorem withModel_completion (i : Instr) (s : State) (h : BitVec 8) (body : Model → State → Outcome)
    (hi : i ≠ .build) (hb : ∀ m, Completion i s (body m (buildIfDue s))) :
    Completion i s (withModel h s body) := by
  rcases withModel_cases h s body with ⟨c, hc, e⟩ | ⟨m, -, e⟩
  · rw [e]; exact .error c hc hi
  · rw [e]; exact hb m

theorem configureSlot_completion (h : BitVec 8) (k : BitVec 6) (s : State) (hk : userSlot s.hw h = .ok k)
    (he : slotAt s k = none) : Completion (.cfg h) s (configureSlot k (buildIfDue s)) := by
  unfold configureSlot
  split
  · exact .error _ (by simp) (by simp)
  · rename_i hn
    split
    · exact .error _ (by simp) (by simp)
    · rename_i w _
      simp only [cfgParams_buildIfDue]
      simp only [buildIfDue_hw, buildIfDue_pend, Nat.not_lt] at hn
      unfold commitModel
      split
      · rename_i hv
        simp only [buildIfDue_pend] at hv
        split
        · exact .error _ (by simp) (by simp)
        · split
          · exact .filled h k w rfl hk he hn _ (by simp [hv])
          · exact .result _ _ (.inr rfl) (by simp)
      · have e := Completion.filled h k w rfl hk he hn s.result (fun _ => rfl)
        simpa [finishWith, finish] using e

theorem checkModel_completion (i : Instr) (s : State) (m : Model) (hi : i ≠ .build ∧ ∀ h, i ≠ .release h) :
    Completion i s (checkModel m (buildIfDue s)) := by
  unfold checkModel
  split
  · exact .error _ (by simp) hi.1
  · split
    · exact .result _ _ (.inl rfl) hi
    · exact .result _ _ (.inr rfl) hi

theorem updateModel_completion (i : Instr) (s : State) (m : Model) (hi : i ≠ .build ∧ ∀ h, i ≠ .release h) :
    Completion i s (updateModel m (buildIfDue s)) := by
  unfold updateModel
  split
  · exact .error _ (by simp) hi.1
  · split
    · exact .result _ _ (.inl rfl) hi
    · exact .error _ (by simp) hi.1

/-- Every command ends in one of the ways of `Completion`. -/
theorem exec_completion (i : Instr) (s : State) : Completion i s (exec i s) := by
  cases i with
  | cfg h =>
    show Completion _ s (execCfg h s)
    unfold execCfg
    split
    · rename_i hu
      rw [userSlot_error _ _ _ hu]
      exact .error _ (by simp) (by simp)
    · split
      · exact .error _ (by simp) (by simp)
      · rename_i hu _ hs
        exact configureSlot_completion h _ s hu hs
  | release h =>
    show Completion _ s (execRelease h s)
    unfold execRelease
    split
    · rename_i hu
      rw [userSlot_error _ _ _ hu]
      exact .error _ (by simp) (by simp)
    · split
      · exact .error _ (by simp) (by simp)
      · rename_i hu _ m hs
        exact .freed h _ m rfl hu hs
  | init h => exact withModel_completion _ _ _ _ (by simp) fun m => .result _ _ (.inl rfl) (by simp)
  | update h => exact withModel_completion _ _ _ _ (by simp) fun m => updateModel_completion _ _ m (by simp)
  | final h => exact withModel_completion _ _ _ _ (by simp) fun m => .result _ _ (.inl rfl) (by simp)
  | lookupPre =>
    show Completion _ s (execLookupPre s)
    exact lookupBy_cases _ _ _ (by simp)
  | lookupList => exact lookupBy_cases .lookupList s _ (by simp)
  | check h => exact withModel_completion _ _ _ _ (by simp) fun m => checkModel_completion _ _ m (by simp)
  | tblrd h i => exact withModel_completion _ _ _ _ (by simp) fun m => .result _ _ (.inl rfl) (by simp)
  | paramrd h sel =>
    show Completion _ s (execParamrd h sel s)
    unfold execParamrd
    split
    · exact withModel_completion _ _ _ _ (by simp) fun m => .result _ _ (.inl rfl) (by simp)
    · rename_i hs
      exact .illegal (by simpa [Instr.wf] using hs)
  | build => exact .done rfl

end Sys2Proof.Machine
end

