-- ==== Sys2Proof/Laws/Memory.lean ====
section
/-! SUPPORT. The laws of buffer memory: a read after a write, the canonical form, and what lies where. -/

namespace Sys2Proof.Machine

open Sys2Proof

@[simp] theorem Memory.read_nil (a : Nat) : Memory.read [] a = none := rfl

/-- A write is read back, and every other byte reads as before. -/
theorem Memory.read_write (m : List Host.Cell) (a a' : Nat) (b : Byte) :
    Memory.read (Memory.write m a b) a' = if a' = a then some b else Memory.read m a' := by
  induction m with
  | nil => simp [Memory.write, Memory.read, eq_comm]
  | cons c m ih =>
    simp only [Memory.write]
    split
    · simp [Memory.read, eq_comm]
    · split
      · rename_i h
        subst h
        by_cases h' : a' = c.1 <;> simp [Memory.read, h', eq_comm]
      · simp only [Memory.read, ih]
        split <;> split <;> simp_all

@[simp] theorem Memory.read_write_same (m : List Host.Cell) (a : Nat) (b : Byte) :
    Memory.read (Memory.write m a b) a = some b := by
  simp [Memory.read_write]

theorem Memory.read_write_other (m : List Host.Cell) (a a' : Nat) (b : Byte) (h : a' ≠ a) :
    Memory.read (Memory.write m a b) a' = Memory.read m a' := by
  simp [Memory.read_write, h]

/-- A write keeps the canonical form above any lower bound the address respects. -/
theorem Memory.rising_write (m : List Host.Cell) (lo : Option Nat) (a : Nat) (b : Byte)
    (h : Memory.rising lo m = true) (hlo : ∀ l, lo = some l → l < a) :
    Memory.rising lo (Memory.write m a b) = true := by
  induction m generalizing lo with
  | nil => cases lo <;> simp_all [Memory.write, Memory.rising]
  | cons c m ih =>
    simp only [Memory.rising, Bool.and_eq_true] at h
    simp only [Memory.write]
    split
    · cases lo <;> simp_all [Memory.rising]
    · split
      · cases lo <;> simp_all [Memory.rising]
      · simp only [Memory.rising, Bool.and_eq_true]
        refine ⟨h.1, ih _ h.2 ?_⟩
        intro l hl
        cases hl
        omega

/-- Every memory operation keeps the canonical form. -/
theorem Memory.write_wf (m : List Host.Cell) (a : Nat) (b : Byte) (h : Memory.wf m = true) :
    Memory.wf (Memory.write m a b) = true :=
  Memory.rising_write m none a b h (by simp)

@[simp] theorem Memory.wf_nil : Memory.wf [] = true := rfl

/-- A write adds at most its own cell. -/
theorem Memory.mem_write {m : List Host.Cell} {a : Nat} {b : Byte} {c : Host.Cell}
    (h : c ∈ Memory.write m a b) : c = (a, b) ∨ c ∈ m := by
  induction m with
  | nil => simpa [Memory.write] using h
  | cons d m ih =>
    simp only [Memory.write] at h
    split at h
    · simpa using h
    · split at h
      · rcases List.mem_cons.1 h with h | h
        · exact .inl h
        · exact .inr (List.mem_cons_of_mem _ h)
      · rcases List.mem_cons.1 h with h | h
        · exact .inr (by simp [h])
        · exact (ih h).imp_right (List.mem_cons_of_mem _)

@[simp] theorem mem_insertRising (a x : Nat) (l : List Nat) : x ∈ insertRising a l ↔ x = a ∨ x ∈ l := by
  induction l with
  | nil => simp [insertRising]
  | cons y ys ih =>
    simp only [insertRising]
    split
    · simp
    · split
      · rename_i h; subst h; simp
      · simp only [List.mem_cons, ih]
        tauto

/-- A buffer byte after a HOST write of one byte (R66). -/
theorem bufferByte_writeBufferByte (off off' : Nat) (b : Byte) (s : State) :
    bufferByte (writeBufferByte off b s) off' = if off' = off then b else bufferByte s off' := by
  simp only [bufferByte, writeBufferByte_mem, writeBufferByte_epoch, Memory.read_write]
  split <;> rfl

end Sys2Proof.Machine
end

