-- ==== Sys2Proof/Laws/PerInstr.lean ====
section
/-! SUPPORT. Laws stated for each command in turn: the fields of its encoding (R91, R92). -/

namespace Sys2Proof.Laws

open Sys2Proof

/-- Three bytes put side by side, zeros above, are found again in the four fields of R91. -/
theorem fields_of_bytes (imm h opc : BitVec 8) :
    let c : Cmd := (imm.setWidth 32 <<< 16) ||| (h.setWidth 32 <<< 8) ||| opc.setWidth 32
    Cmd.opc c = opc ∧ Cmd.h c = h ∧ Cmd.imm c = imm ∧ Cmd.rsv c = 0 := by
  refine ⟨?_, ?_, ?_, ?_⟩ <;>
  · apply BitVec.eq_of_getLsbD_eq
    intro i hi
    simp only [Cmd.opc, Cmd.h, Cmd.imm, Cmd.rsv]
    simp
    interval_cases i <;> simp

/-- The encoded word has the opcode in OPC, the handle in H, the immediate in IMM8, and RSV 0 (R91, R101). -/
def EncodeFields.Statement (i : Instr) : Prop :=
  Cmd.opc (encode i) = i.opcode ∧ Cmd.h (encode i) = i.handle ∧ Cmd.imm (encode i) = i.immediate ∧
    Cmd.rsv (encode i) = 0

theorem EncodeFields.cfg (h : BitVec 8) : EncodeFields.Statement (.cfg h) := fields_of_bytes _ _ _
theorem EncodeFields.release (h : BitVec 8) : EncodeFields.Statement (.release h) := fields_of_bytes _ _ _
theorem EncodeFields.init (h : BitVec 8) : EncodeFields.Statement (.init h) := fields_of_bytes _ _ _
theorem EncodeFields.update (h : BitVec 8) : EncodeFields.Statement (.update h) := fields_of_bytes _ _ _
theorem EncodeFields.final (h : BitVec 8) : EncodeFields.Statement (.final h) := fields_of_bytes _ _ _
theorem EncodeFields.lookupPre : EncodeFields.Statement .lookupPre := fields_of_bytes _ _ _
theorem EncodeFields.lookupList : EncodeFields.Statement .lookupList := fields_of_bytes _ _ _
theorem EncodeFields.check (h : BitVec 8) : EncodeFields.Statement (.check h) := fields_of_bytes _ _ _
theorem EncodeFields.tblrd (h i : BitVec 8) : EncodeFields.Statement (.tblrd h i) := fields_of_bytes _ _ _
theorem EncodeFields.paramrd (h sel : BitVec 8) : EncodeFields.Statement (.paramrd h sel) := fields_of_bytes _ _ _
theorem EncodeFields.build : EncodeFields.Statement .build := fields_of_bytes _ _ _

end Sys2Proof.Laws
end

