-- ==== Sys2Proof/Laws/Steps.lean ====
section
/-! SUPPORT. What a HOST access, a completion and a step can do, said once each. -/

namespace Sys2Proof.Machine

open Sys2Proof

/-! ### decoding a legal word -/

/-- A decoded command is well-formed (R96). -/
theorem decode_wf {c : Cmd} {i : Instr} (h : decode c = .ok i) : i.wf = true := by
  unfold decode at h
  split at h
  · cases h
  · split at h
    · cases h
    · split at h
      · cases h
      · split at h
        · cases h
        · split at h
          · cases h
          · rename_i hw
            cases h
            simpa using hw

/-! ### completion -/

/-- A completion ends an illegal word with ILLEGAL_COMMAND alone and a legal one as its command does (R96). -/
theorem complete_cases (s : State) :
    (∃ e, decode s.pend.cmd = .error e ∧ complete s = raise .illegalCommand s) ∨
    (∃ i, decode s.pend.cmd = .ok i ∧ complete s = exec i s ∧ Completion i s (complete s)) := by
  unfold complete
  cases hd : decode s.pend.cmd with
  | error e => exact .inl ⟨e, rfl, rfl⟩
  | ok i => exact .inr ⟨i, rfl, rfl, exec_completion i s⟩

/-- Every completion clears BUSY (R13). -/
theorem complete_busy {s t : State} (h : complete s = .next t) : t.busy = false := by
  rcases complete_cases s with ⟨e, _, h'⟩ | ⟨i, _, _, hc⟩
  · rw [h'] at h
    cases h
    rfl
  · rw [h] at hc
    cases hc <;> rfl

/-- The fields no completion changes. -/
theorem complete_fields {s t : State} (h : complete s = .next t) :
    t.hw = s.hw ∧ t.overrun = s.overrun ∧ t.args = s.args ∧ t.pend = s.pend ∧ t.mem = s.mem ∧ t.raced = s.raced ∧
      t.draw = s.draw ∧ t.epoch = s.epoch ∧ t.inputs = s.inputs ∧ t.resp = s.resp := by
  rcases complete_cases s with ⟨e, _, h'⟩ | ⟨i, _, _, hc⟩
  · rw [h'] at h
    cases h
    exact ⟨rfl, rfl, rfl, rfl, rfl, rfl, rfl, rfl, rfl, rfl⟩
  · rw [h] at hc
    cases hc <;> simp

/-! ### HOST writes -/

/-- All a HOST write of the window can do to the state: nothing; an argument register; OVERRUN; the acceptance of a
command; buffer bytes. -/
inductive WriteEffect (s : State) : State → Prop
  | nothing : WriteEffect s s
  | argument (a : ArgRegs) : WriteEffect s { s with args := a }
  | overrunCleared : WriteEffect s { s with overrun := false }
  | dropped (h : s.busy = true) : WriteEffect s { s with overrun := true }
  | accepted (c : Cmd) (h : s.busy = false) : WriteEffect s (accept c s)
  | bytes (m : List Host.Cell) (r : List Nat)
      (hm : Memory.wf s.mem = true → Memory.wf m = true)
      (hp : ∀ c ∈ m, c ∈ s.mem ∨ inBuffer s.hw c.1 = true)
      (hr : ∀ off ∈ r, off ∈ s.raced ∨ inBuffer s.hw off = true) :
      WriteEffect s { s with mem := m, raced := r }

theorem writeReg_effect (r : Reg) (en v : Word) (s : State) : WriteEffect s (writeReg r en v s) := by
  cases r <;> simp only [writeReg] <;> first | exact .nothing | exact .argument _ | skip
  · split
    · exact .overrunCleared
    · exact .nothing
  · split
    · unfold writeCmd
      split
      · rename_i h; exact .dropped h
      · rename_i h; exact .accepted _ (by simpa using h)
    · exact .nothing

theorem writeBytes_effect (n off : Nat) (v : Word) (s : State) :
    ∃ m r, writeBytes n off v s = { s with mem := m, raced := r } ∧
      (Memory.wf s.mem = true → Memory.wf m = true) ∧
      (∀ c ∈ m, c ∈ s.mem ∨ inBuffer s.hw c.1 = true) ∧
      (∀ o ∈ r, o ∈ s.raced ∨ inBuffer s.hw o = true) := by
  induction n generalizing off v s with
  | zero => exact ⟨s.mem, s.raced, rfl, id, fun _ h => .inl h, fun _ h => .inl h⟩
  | succ n ih =>
    simp only [writeBytes]
    obtain ⟨m, r, e, hm, hp, hr⟩ := ih (off + 1) (v >>> 8) (writeBufferArea off (v.setWidth 8) s)
    by_cases hb : inBuffer s.hw off = true
    · have hs : writeBufferArea off (v.setWidth 8) s = writeBufferByte off (v.setWidth 8) s := by
        simp [writeBufferArea, hb]
      rw [hs] at e hm hp hr ⊢
      refine ⟨m, r, e, fun h => hm (Memory.write_wf _ _ _ h), fun c hc => ?_, fun o ho => ?_⟩
      · rcases hp c hc with h | h
        · rcases Memory.mem_write h with rfl | h
          · exact .inr hb
          · exact .inl h
        · exact .inr h
      · rcases hr o ho with h | h
        · rw [writeBufferByte_raced] at h
          split at h
          · rcases (mem_insertRising _ _ _).1 h with rfl | h
            · exact .inr hb
            · exact .inl h
          · exact .inl h
        · exact .inr h
    · have hs : writeBufferArea off (v.setWidth 8) s = s := by simp [writeBufferArea, hb]
      rw [hs] at e hm hp hr ⊢
      exact ⟨m, r, e, hm, hp, hr⟩

/-- All `writeBytes` does to buffer bytes (R66, R266): byte off+j takes bits 8j+7:8j, every other byte stays, and while
BUSY exactly the written offsets are added to those written under the command. -/
theorem writeBytes_spec (n off : Nat) (v : Word) (s : State) (h : ∀ j, j < n → inBuffer s.hw (off + j) = true) :
    (∀ j, j < n → bufferByte (writeBytes n off v s) (off + j) = v.extractLsb' (8 * j) 8) ∧
    (∀ a, a < off ∨ off + n ≤ a → bufferByte (writeBytes n off v s) a = bufferByte s a) ∧
    (∀ a, a ∈ (writeBytes n off v s).raced ↔ a ∈ s.raced ∨ (s.busy = true ∧ off ≤ a ∧ a < off + n)) ∧
    (s.busy = false → (writeBytes n off v s).raced = s.raced) ∧
    writeBytes n off v s = { s with mem := (writeBytes n off v s).mem, raced := (writeBytes n off v s).raced } := by
  induction n generalizing off v s with
  | zero => exact ⟨by simp, fun _ _ => rfl, fun a => by simp [writeBytes], fun _ => rfl, rfl⟩
  | succ n ih =>
    have e : writeBytes (n + 1) off v s = writeBytes n (off + 1) (v >>> 8) (writeBufferByte off (v.setWidth 8) s) := by
      have h0 := h 0 (by omega)
      simp only [Nat.add_zero] at h0
      simp [writeBytes, writeBufferArea, h0]
    have h' : ∀ j, j < n → inBuffer (writeBufferByte off (v.setWidth 8) s).hw (off + 1 + j) = true := fun j hj => by
      rw [writeBufferByte_hw, Nat.add_assoc, Nat.add_comm 1 j]
      exact h (j + 1) (by omega)
    obtain ⟨inside, outside, raced, idle, rest⟩ := ih (off + 1) (v >>> 8) _ h'
    rw [e]
    refine ⟨fun j hj => ?_, fun a ha => ?_, fun a => ?_, fun hb => ?_, ?_⟩
    · cases j with
      | zero =>
        rw [outside _ (by omega), Nat.add_zero, bufferByte_writeBufferByte, if_pos rfl]
        exact BitVec.eq_of_getLsbD_eq fun i hi => by simp [hi]
      | succ j =>
        rw [show off + (j + 1) = off + 1 + j by omega, inside j (by omega)]
        exact BitVec.eq_of_getLsbD_eq fun i hi => by
          simp only [BitVec.getLsbD_extractLsb', BitVec.getLsbD_ushiftRight]
          rw [show 8 + (8 * j + i) = 8 * (j + 1) + i by omega]
    · rw [outside a (by omega), bufferByte_writeBufferByte, if_neg (by omega)]
    · rw [raced a, writeBufferByte_raced, writeBufferByte_busy]
      cases s.busy with
      | false => simp
      | true =>
        simp only [if_true, mem_insertRising, true_and]
        constructor
        · rintro ((rfl | h) | h)
          · exact .inr (by omega)
          · exact .inl h
          · exact .inr (by omega)
        · rintro (h | h)
          · exact .inl (.inr h)
          · rcases Nat.eq_or_lt_of_le h.1 with rfl | h1
            · exact .inl (.inl rfl)
            · exact .inr (by omega)
    · rw [idle (by simpa using hb), writeBufferByte_raced, if_neg (by simp [hb])]
    · rw [rest]
      rfl

/-- An 8-byte read at a register's offset (R66, R43). -/
theorem readAt_eight (off : Nat) (s : State) (h : off % 8 = 0) (hlt : off < 0x100) :
    readAt off 8 s = match regAt off with | none => 0 | some r => readReg r s := by
  have all : ∀ v : Word, v &&& 0xFFFFFFFFFFFFFFFF = v := fun v => by
    rw [show (0xFFFFFFFFFFFFFFFF : Word) = BitVec.allOnes 64 by decide, BitVec.and_allOnes]
  simp only [readAt, hlt, if_true, readWindowReg, h, Nat.sub_zero, accessEnable, accessShift]
  cases regAt off with
  | none => rfl
  | some r => simp only [all]; simp

theorem writeAt_effect (off size : Nat) (v : Word) (s : State) : WriteEffect s (writeAt off size v s) := by
  unfold writeAt
  split
  · unfold writeWindowReg
    split
    · exact .nothing
    · exact writeReg_effect _ _ _ _
  · obtain ⟨m, r, e, hm, hp, hr⟩ := writeBytes_effect size off v s
    rw [e]
    exact .bytes m r hm hp hr

/-! ### steps -/

/-- Whether the ENGINE has the turn, as a Bool. -/
def engineNext (s : State) : Bool :=
  match s.inputs with
  | [] => true
  | .engine :: _ => true
  | .write _ _ _ :: _ | .read _ _ :: _ | .reset :: _ => false

theorem engineNext_iff (s : State) : engineNext s = true ↔ EngineNext s := by
  unfold engineNext EngineNext
  cases s.inputs with
  | nil => simp
  | cons e rest => cases e <;> simp

@[simp] theorem popped_busy (s : State) : (popped s).busy = s.busy := rfl
@[simp] theorem popped_pend (s : State) : (popped s).pend = s.pend := rfl
@[simp] theorem popped_hw (s : State) : (popped s).hw = s.hw := rfl
@[simp] theorem popped_registry (s : State) : (popped s).registry = s.registry := rfl
@[simp] theorem popped_overrun (s : State) : (popped s).overrun = s.overrun := rfl
@[simp] theorem popped_result (s : State) : (popped s).result = s.result := rfl
@[simp] theorem popped_err (s : State) : (popped s).err = s.err := rfl
@[simp] theorem popped_mem (s : State) : (popped s).mem = s.mem := rfl
@[simp] theorem popped_raced (s : State) : (popped s).raced = s.raced := rfl
@[simp] theorem popped_slots (s : State) : (popped s).slots = s.slots := rfl
@[simp] theorem popped_args (s : State) : (popped s).args = s.args := rfl
@[simp] theorem popped_draw (s : State) : (popped s).draw = s.draw := rfl
@[simp] theorem popped_epoch (s : State) : (popped s).epoch = s.epoch := rfl

theorem step_of_engineNext (s : State) (h : engineNext s = true) : step s = engineTurn (popped s) := by
  unfold step nextEvent engineNext at *
  cases hi : s.inputs with
  | nil =>
    have : popped s = s := by
      unfold popped
      rw [hi, List.tail_nil, ← hi]
    simp [this]
  | cons e rest => cases e <;> simp_all [act, popped]

/-- All a step can do, when it gives a next state: RESET; a read or a bus error, which only answer the HOST; a HOST
write; an idle ENGINE; a completion. -/
inductive StepEffect (s : State) : State → Prop
  | reset (rest : List Event) (h : s.inputs = .reset :: rest) : StepEffect s (assertReset (popped s))
  | answered (r : BusResponse) (h : engineNext s = false) : StepEffect s { popped s with resp := r }
  | written (addr size : Nat) (v : Word) (off : Nat) (rest : List Event) (h : s.inputs = .write addr size v :: rest)
      (ho : windowOffset s.hw addr = some off) (hl : accessLegal off size = true) (t : State)
      (ht : t = writeAt off size v (popped s)) (he : WriteEffect (popped s) t) :
      StepEffect s { t with resp := .done }
  | idle (h : engineNext s = true) (hb : s.busy = false) : StepEffect s (popped s)
  | completed (h : engineNext s = true) (hb : s.busy = true) (t : State) (ht : complete (popped s) = .next t) :
      StepEffect s t

theorem step_effect {s t : State} (h : step s = .next t) : StepEffect s t := by
  by_cases he : engineNext s = true
  · rw [step_of_engineNext s he] at h
    unfold engineTurn at h
    split at h
    · rename_i hb
      exact .completed he hb t h
    · rename_i hb
      cases h
      exact .idle he (by simpa using hb)
  · unfold step nextEvent at h
    have he' : engineNext s = false := by simpa using he
    cases hi : s.inputs with
    | nil => simp [engineNext, hi] at he'
    | cons e rest =>
      have hp : { s with inputs := rest } = popped s := by simp [popped, hi]
      rw [hi] at h
      simp only [hp] at h
      cases e with
      | engine => simp [engineNext, hi] at he'
      | reset =>
        cases h
        exact .reset rest hi
      | read addr size =>
        simp only [act, hostRead] at h
        split at h
        · cases h
        · split at h <;> cases h <;> exact .answered _ he'
      | write addr size v =>
        simp only [act, hostWrite] at h
        split at h
        · cases h
        · rename_i off ho
          split at h
          · rename_i hl
            cases h
            exact .written addr size v off rest hi ho hl _ rfl (writeAt_effect _ _ _ _)
          · cases h
            exact .answered _ he'

/-- An event of the HOST never gives the ENGINE's turn and the other way round: what is next decides. -/
theorem step_reset (s : State) (rest : List Event) (h : s.inputs = .reset :: rest) :
    step s = .next (assertReset (popped s)) := by
  simp [step, nextEvent, h, act, popped]

/-- What the next event is decides the step (R74). -/
theorem step_of_head (s : State) (e : Event) (h : s.inputs.head? = some e) : step s = act e (popped s) := by
  unfold step nextEvent
  cases hi : s.inputs with
  | nil => simp [hi] at h
  | cons e' rest =>
    simp only [hi, List.head?_cons, Option.some.injEq] at h
    subst h
    simp [popped, hi]

/-- An offset of the window is decoded (R61). -/
theorem windowOffset_base (hw : HwConfig) (off : Nat) (h : off < 0x1000 + hw.dbufSize) :
    windowOffset hw (hw.base + off) = some off := by
  simp [windowOffset, windowSize, h]

/-- A legal HOST write (R66). -/
theorem step_write {s : State} {off size : Nat} {v : Word} (h : WriteNext s off size v)
    (ho : off < 0x1000 + s.hw.dbufSize) (hl : accessLegal off size = true) :
    step s = .next { writeAt off size v (popped s) with resp := .done } := by
  rw [step_of_head s _ h]
  simp [act, hostWrite, windowOffset_base _ _ ho, hl]

/-- A legal HOST read (R66). -/
theorem step_read {s : State} {off size : Nat} (h : ReadNext s off size)
    (ho : off < 0x1000 + s.hw.dbufSize) (hl : accessLegal off size = true) :
    step s = .next { popped s with resp := .data (readAt off size (popped s)) } := by
  rw [step_of_head s _ h]
  simp [act, hostRead, windowOffset_base _ _ ho, hl]

/-- An illegal HOST write gets a bus error (R64, R65). -/
theorem step_write_error {s : State} {off size : Nat} {v : Word} (h : WriteNext s off size v)
    (ho : off < 0x1000 + s.hw.dbufSize) (hl : accessLegal off size = false) :
    step s = .next { popped s with resp := .error } := by
  rw [step_of_head s _ h]
  simp [act, hostWrite, windowOffset_base _ _ ho, hl]

/-- An illegal HOST read gets a bus error (R64, R65). -/
theorem step_read_error {s : State} {off size : Nat} (h : ReadNext s off size)
    (ho : off < 0x1000 + s.hw.dbufSize) (hl : accessLegal off size = false) :
    step s = .next { popped s with resp := .error } := by
  rw [step_of_head s _ h]
  simp [act, hostRead, windowOffset_base _ _ ho, hl]

/-- Reads do not depend on the event taken off. -/
@[simp] theorem readAt_popped (off size : Nat) (s : State) : readAt off size (popped s) = readAt off size s := rfl

end Sys2Proof.Machine
end

