-- ==== Sys2Proof/Tests/Slice0.lean ====
section
/-! SUPPORT. Small tests, their expected values taken from spec/95_test_vectors.md, and for every obligation with
hypotheses a concrete state and operands that meet them (`witness_…`). -/

namespace Sys2Proof.Tests

-- The kernel evaluations of this file run one after another: run side by side, their threads' stacks reach the memory limit.
set_option Elab.async false

open Sys2Proof Sys2Proof.Machine

/-! ### small states -/

/-- The reset state with HOST events to come. -/
def script (es : List Event) : State := { State.reset with inputs := es }

/-- `s` after the HOST wrote bytes at rising offsets. -/
def fill : Nat → List Byte → State → State
  | _, [], s => s
  | off, b :: bs, s => fill (off + 1) bs (writeBufferByte off b s)

/-- `s` with a command pending that was accepted with these argument registers. -/
def pending (c : Cmd) (a : ArgRegs) (s : State) : State := accept c { s with args := a }

/-- The reset state of the example instance after BUILD. -/
def ready : State := { State.reset with registry := .ready (catalogTables Config.exampleInstance.catalog) }

/-- A state with one model, in slot 1, and the catalog built. -/
def slotted (m : Model) : State := setSlot 1 (some m) ready

/-- The CRC-8 of R203 as a user model, and the same with a wrong CHECK. -/
def crc8 : Model := construct Config.crc8
def crc8Wrong : Model := construct { Config.crc8 with check := 0xF5 }

/-- w 16, REFIN 1, INIT 0x1_0001 (2.3, INIT corner cases). -/
def wide16 : Model := construct { Config.crc16Arc with init := 0x10001 }

/-- The argument registers with UPDATE's operands. -/
def updateArgs (r : Word) (a n : BitVec 32) : ArgRegs := { ArgRegs.zero with regIn := r, dataAddr := a, dataLen := n }

/-- The argument registers with a name length. -/
def nameArgs (n : BitVec 8) : ArgRegs := { ArgRegs.zero with nameLen := n }

/-- The argument registers of 2.4's CRC-8 rows, with an ARG_CFG and an ARG_CHECK. -/
def cfgArgs (cfg : BitVec 11) (check : Word) : ArgRegs :=
  { ArgRegs.zero with argCfg := cfg, argPoly := 0x07, argCheck := check }

/-- What the HOST polls: ERR and RESULT. -/
def seen (o : Outcome) : Option (Code × Word) :=
  match o with
  | .next t => some (t.err, t.result)
  | .fault _ | .refused _ => none

/-- Whether an outcome is a next state with this property. -/
def nextWith (o : Outcome) (p : State → Bool) : Bool :=
  match o with
  | .next t => p t
  | .fault _ | .refused _ => false

/-- "CRC-32" and "CRC-16/ARC" in ASCII (G2). -/
def nameCrc32 : List Byte := [0x43, 0x52, 0x43, 0x2D, 0x33, 0x32]
def nameArc : List Byte := [0x43, 0x52, 0x43, 0x2D, 0x31, 0x36, 0x2F, 0x41, 0x52, 0x43]

/-! ### WellFormed smoke: the one check there is, and the words the decoder refuses -/

theorem test_wf_refuses_selector_07 : (Instr.paramrd 0x84 0x07).wf = false := by decide
theorem test_wf_refuses_selector_7F : (Instr.paramrd 0x84 0x7F).wf = false := by decide
theorem test_wf_accepts_selectors : (Instr.paramrd 0x84 0x06).wf = true ∧ (Instr.paramrd 0x84 0x80).wf = true := by
  decide

/-- 2.6. -/
theorem test_decode_refuses :
    decode 0x00000000 = .error .unassignedOpcode ∧ decode 0x0000000C = .error .unassignedOpcode ∧
      decode 0x000000FF = .error .unassignedOpcode ∧ decode 0x01000003 = .error .reservedNotZero ∧
      decode 0x00010006 = .error .unusedImmediate ∧ decode 0x00010003 = .error .unusedImmediate ∧
      decode 0x00000106 = .error .unusedHandle ∧ decode 0x0007000A = .error .unassignedSelector := by
  refine ⟨rfl, rfl, rfl, rfl, rfl, rfl, rfl, rfl⟩

/-! ### every constructor's word, field by field from R91: RSV, IMM8, H, OPC -/

theorem test_decode_cfg : decode 0b00000000_00000000_00000001_00000001 = .ok (.cfg 0x01) := rfl
theorem test_decode_release : decode 0b00000000_00000000_10000100_00000010 = .ok (.release 0x84) := rfl
theorem test_decode_init : decode 0b00000000_00000000_00010000_00000011 = .ok (.init 0x10) := rfl
theorem test_decode_update : decode 0b00000000_00000000_00000001_00000100 = .ok (.update 0x01) := rfl
theorem test_decode_final : decode 0b00000000_00000000_10000101_00000101 = .ok (.final 0x85) := rfl
theorem test_decode_lookup_pre : decode 0b00000000_00000000_00000000_00000110 = .ok .lookupPre := rfl
theorem test_decode_lookup_list : decode 0b00000000_00000000_00000000_00000111 = .ok .lookupList := rfl
theorem test_decode_check : decode 0b00000000_00000000_10000110_00001000 = .ok (.check 0x86) := rfl
theorem test_decode_tblrd : decode 0b00000000_11111111_10000101_00001001 = .ok (.tblrd 0x85 0xFF) := rfl
theorem test_decode_paramrd : decode 0b00000000_10000101_10000100_00001010 = .ok (.paramrd 0x84 0x85) := rfl
theorem test_decode_build : decode 0b00000000_00000000_00000000_00001011 = .ok .build := rfl
theorem test_table_word : decodeTableWord 32 0x00808409 = some (.tblrd 0x84 0x80) := rfl

/-! ### bit utilities and tables (2.1, 2.2) -/

theorem test_rev : rev .w16 0x1234 = 0x2C48 ∧ rev .w40 0x123456789A = 0x591E6A2C48 ∧ rev .w16 0x10001 = 0x18000 := by
  decide +kernel
theorem test_table_24 : tableEntry .w24 0x864CFB true 0xFF = 0x1CA1BB := by decide +kernel
theorem test_table_40 : tableEntry .w40 0x0004820009 false 0x80 = 0x0241000480 := by decide +kernel

/-! ### at most two tests a command (2.3 to 2.5, P1 to P3) -/

theorem test_cfg_mismatch :
    seen (exec (.cfg 0x01) (pending 0x00000101 (cfgArgs 0x408 0xF5) State.reset)) = some (.checkMismatch, 0xF4) := by
  decide +kernel
theorem test_cfg_masks_poly :
    nextWith (exec (.cfg 0x00)
        (pending 0x00000001 { ArgRegs.zero with argCfg := 0x310, argPoly := 0x18005 } State.reset))
      (fun t => t.err == .ok && (slotAt t 0).any fun m => m.poly == 0x8005 && Table.entry m.table 1 == 0xC0C1) = true := by
  decide +kernel
theorem test_release : nextWith (exec (.release 0x01) (slotted crc8)) (fun t => t.err == .ok && (slotAt t 1).isNone) = true := by
  decide +kernel
theorem test_release_empty : seen (exec (.release 0x00) (slotted crc8)) = some (.slotEmpty, 0) := by decide +kernel
theorem test_init_passes_high_bits : seen (exec (.init 0x01) (slotted wide16)) = some (.ok, 0x18000) := by decide +kernel
theorem test_init_not_ready : seen (exec (.init 0x84) State.reset) = some (.notReady, 0) := by decide +kernel
theorem test_update_to_the_end :
    seen (exec (.update 0x01) (pending 0x00000104 (updateArgs 0x1F 4090 6) (fill 0x1FFA [0, 0, 0, 0, 0, 0] (slotted crc8))))
      = some (.ok, 0x0E) := by
  decide +kernel
theorem test_update_crc32 :
    seen (exec (.update 0x84) (pending 0x00008404 (updateArgs 0xFFFFFFFF 0 1) (fill 0x1000 [0x31] ready)))
      = some (.ok, 0x7C231048) := by
  decide +kernel
theorem test_final_crc32 : seen (exec (.final 0x84) (pending 0x00008405 (updateArgs 0x340BC6D9 0 0) ready))
    = some (.ok, 0xCBF43926) := by
  decide +kernel
theorem test_final_ignores_high_bits :
    seen (exec (.final 0x01) (pending 0x00000105 (updateArgs 0xABCD1F 0 0) (slotted crc8))) = some (.ok, 0x1F) := by
  decide +kernel
theorem test_lookup_pre : seen (exec .lookupPre (pending 0x00000006 (nameArgs 6) (fill 0x100 nameCrc32 State.reset)))
    = some (.ok, 0x184) := by
  decide +kernel
theorem test_lookup_pre_longer :
    seen (exec .lookupPre (pending 0x00000006 (nameArgs 7) (fill 0x100 (nameCrc32 ++ [0x20]) State.reset))) = some (.ok, 0) := by
  decide +kernel
theorem test_lookup_list :
    seen (exec .lookupList (pending 0x00000007 { nameArgs 10 with slotMask := 0x8 }
      (fill 0x100 nameArc (setSlot 3 (some (construct Config.crc16Arc)) State.reset)))) = some (.ok, 0x103) := by
  decide +kernel
theorem test_lookup_list_mask :
    seen (exec .lookupList (pending 0x00000007 (nameArgs 10)
      (fill 0x100 nameArc (setSlot 3 (some (construct Config.crc16Arc)) State.reset)))) = some (.ok, 0) := by
  decide +kernel
theorem test_check : seen (exec (.check 0x85) ready) = some (.ok, 0x995DC9BBDF1939FA) := by decide +kernel
theorem test_check_mismatch : seen (exec (.check 0x01) (slotted crc8Wrong)) = some (.checkMismatch, 0xF4) := by
  decide +kernel
theorem test_tblrd : seen (exec (.tblrd 0x84 0x80) ready) = some (.ok, 0xEDB88320) := by decide +kernel
theorem test_tblrd_top : seen (exec (.tblrd 0x85 0xFF) ready) = some (.ok, 0xE0ADA17364673F59) := by decide +kernel
theorem test_paramrd_name_byte : seen (exec (.paramrd 0x84 0x85) ready) = some (.ok, 0x32) := by decide +kernel
theorem test_paramrd_flags : seen (exec (.paramrd 0x84 0x03) ready) = some (.ok, 0x3) := by decide +kernel
theorem test_build : nextWith (step (pending 0x0000000B ArgRegs.zero State.reset)) (fun t => statusWord t == 0x008) = true := by
  decide +kernel
theorem test_build_busy : statusWord (pending 0x0000000B ArgRegs.zero State.reset) = 0x005 := by decide +kernel

/-! ### the bus (2.7) and reset (2.8) -/

theorem test_bus_byte_order :
    nextWith (step (script [.write 0x1000 8 0x3837363534333231])) (fun t => readAt 0x1004 4 t == 0x38373635) = true := by
  decide +kernel
theorem test_bus_half_write :
    nextWith (step { script [.write 0x1C 4 0x22222222] with args := updateArgs 0x11111111 0 0 })
      (fun t => readAt 0x18 8 t == 0x2222222211111111) = true := by
  decide +kernel
/-- The STATUS values of P3 and of 2.4's SLOT_IN_USE. -/
theorem test_status_codes :
    (∀ p ∈ [(Code.illegalCommand, 0x100#64), (.notReady, 0x300)],
      statusWord { State.reset with err := p.1 } = p.2) ∧
    ∀ p ∈ [(Code.ok, 0x008#64), (.badHandle, 0x208), (.slotEmpty, 0x408), (.slotInUse, 0x508), (.nameRange, 0x608),
        (.invalidParameter, 0x708), (.dataRange, 0x808), (.regRange, 0x908), (.checkMismatch, 0xA08)],
      statusWord { ready with err := p.1 } = p.2 := by
  decide +kernel
theorem test_bus_errors :
    nextWith (step (script [.write 0x18 1 0x01])) (fun t => t.resp == .error) = true ∧
      nextWith (step (script [.write 0x102 4 0x01])) (fun t => t.resp == .error) = true := by
  decide +kernel
theorem test_reset_fields : statusWord State.reset = 0 ∧ readAt 0x68 8 State.reset = 0x0000100000200610 ∧
    Memory.wf State.reset.mem = true := by
  decide +kernel
theorem test_fetch_word :
    nextWith (step (State.reset.withFetchWord 32 0x0000000B)) (fun t => statusWord t == 0x008) = true := by
  decide +kernel

/-! ### witnesses: the states they are about -/

theorem conforming_example : Config.exampleInstance.conforming = true := by decide +kernel

/-- A run's state: catalog built, CRC-8 in slot 1, a command pending, HOST events to come. -/
def running (c : Cmd) (a : ArgRegs) (es : List Event) : State := { pending c a (slotted crc8) with inputs := es }

/-- A run's state with a build due: BUILD or LOOKUP_PRE accepted from reset. -/
def building (c : Cmd) (a : ArgRegs) (es : List Event) : State := { pending c a State.reset with inputs := es }

theorem crc8_ok : ModelOk Config.exampleInstance crc8 where
  nameFits := by decide +kernel
  polyMasked := by decide +kernel
  tableBuilt := by simp [crc8]

theorem slotAt_slotted (m : Model) (k : BitVec 6) : slotAt (slotted m) k = if k = 1 then some m else none := by
  have h : slotAt ready k = none := slotAt_resetOf Config.exampleInstance k
  rw [slotted, slotAt_setSlot, h]

theorem inv_running (c : Cmd) (a : ArgRegs) (es : List Event) : Inv (running c a es) where
  conforming := conforming_example
  memoryForm := rfl
  memoryPlaces := nofun
  racedPlaces := nofun
  slotsExist := by
    intro k m h
    change slotAt (slotted crc8) k = some m at h
    rw [slotAt_slotted] at h
    split at h
    · rename_i e
      subst e
      change 1 < 16
      decide
    · cases h
  slotsOk := by
    intro k m h
    change slotAt (slotted crc8) k = some m at h
    rw [slotAt_slotted] at h
    split at h
    · cases h
      exact crc8_ok
    · cases h
  tablesBuilt := by
    intro tables h
    change Registry.ready _ = Registry.ready tables at h
    cases h
    rfl
  buildingBusy := nofun

theorem inv_building (c : Cmd) (a : ArgRegs) (es : List Event) (h : triggersBuild c = true) : Inv (building c a es) where
  conforming := conforming_example
  memoryForm := rfl
  memoryPlaces := nofun
  racedPlaces := nofun
  slotsExist := by
    intro k m e
    change slotAt State.reset k = some m at e
    rw [State.reset, slotAt_resetOf] at e
    cases e
  slotsOk := by
    intro k m e
    change slotAt State.reset k = some m at e
    rw [State.reset, slotAt_resetOf] at e
    cases e
  tablesBuilt := by
    intro tables e
    change registryAtAcceptance c Registry.uninitialized = Registry.ready tables at e
    simp [registryAtAcceptance, h] at e
  buildingBusy := fun _ => ⟨rfl, h⟩

theorem inv_script (es : List Event) : Inv (script es) where
  conforming := conforming_example
  memoryForm := rfl
  memoryPlaces := nofun
  racedPlaces := nofun
  slotsExist := by
    intro k m e
    change slotAt State.reset k = some m at e
    rw [State.reset, slotAt_resetOf] at e
    cases e
  slotsOk := by
    intro k m e
    change slotAt State.reset k = some m at e
    rw [State.reset, slotAt_resetOf] at e
    cases e
  tablesBuilt := nofun
  buildingBusy := nofun

/-! ### witnesses: encoding and acceptance -/

theorem witness_DecodeOfEncodeIsTheCommand : (Instr.paramrd 0xFF 0x06).wf = true ∧ (Instr.paramrd 0x00 0xFF).wf = true :=
  ⟨rfl, rfl⟩

theorem witness_AcceptedWordsAreEncodings : decode 0x0080840A = .ok (.paramrd 0x84 0x80) := rfl

/-- Each clause of IllegalWord at its boundary, and the legal neighbours. -/
theorem witness_IllegalWordsChangeOnlyStatus :
    (∀ c ∈ [0x00000000#32, 0x0000000C, 0x000000FF, 0x01000003, 0xFF00000B, 0x00000106, 0x00000107, 0x0000FF0B,
        0x00010003, 0x00FF000B, 0x0007000A, 0x007F840A], IllegalWord c ∧ (pending c ArgRegs.zero State.reset).busy = true) ∧
      ∀ c ∈ [0x00000001#32, 0x0000000B, 0x00FFFF09, 0x0006FF0A, 0x0080FF0A], ¬IllegalWord c := by
  unfold IllegalWord
  constructor
  · intro c hc
    fin_cases hc <;> exact ⟨by decide, rfl⟩
  · intro c hc
    fin_cases hc <;> decide

theorem witness_StepRunsTheDecodedCommand :
    ((building 0x0000000B ArgRegs.zero [.engine, .reset]).busy = true ∧
      EngineNext (building 0x0000000B ArgRegs.zero [.engine, .reset]) ∧ EngineNext (building 0x0000000B ArgRegs.zero [])) ∧
      decode 0x0000000B = .ok .build ∧ 0x00FF8509 < 2 ^ 32 ∧
      decode (BitVec.ofNat 32 0x00FF8509) = .ok (.tblrd 0x85 0xFF) :=
  ⟨⟨rfl, .inr rfl, .inl rfl⟩, rfl, by decide, rfl⟩

theorem witness_CmdWriteIsAccepted :
    (CmdWriteNext (script [.write 0x08 8 0xFFFFFFFF0000000B]) 0x0000000B ∧
      (script [.write 0x08 8 0xFFFFFFFF0000000B]).busy = false) ∧
    CmdWriteNext (script [.write 0x08 4 0x06]) 0x00000006 ∧ (script [.write 0x08 4 0x06]).busy = false :=
  ⟨⟨⟨8, 0xFFFFFFFF0000000B, .inr rfl, rfl, by decide⟩, rfl⟩, ⟨4, 0x06, .inl rfl, rfl, by decide⟩, rfl⟩

theorem witness_BusyMarksThePendingCommand :
    (∃ t, step (script [.write 0x08 4 0x06]) = .next t ∧ t.busy = true) ∧
    (∃ t, step (building 0x0000000B ArgRegs.zero [.engine]) = .next t ∧ t.busy = false) ∧
    (∃ t, step (building 0x0000000B ArgRegs.zero [.reset]) = .next t ∧ t.busy = false) ∧
    ∃ t, step (building 0x0000000B ArgRegs.zero [.read 0x00 8]) = .next t ∧ t.busy = true :=
  ⟨⟨_, rfl, rfl⟩, ⟨_, rfl, rfl⟩, ⟨_, rfl, rfl⟩, ⟨_, rfl, rfl⟩⟩

/-- A pending BUILD with OVERRUN set and a HOST event next. -/
def overrun (e : Event) : State := { building 0x0000000B ArgRegs.zero [e] with overrun := true }

theorem witness_OverrunStaysUntilCleared :
    (∃ t, step (building 0x0000000B ArgRegs.zero [.write 0x08 4 0x06]) = .next t ∧ t.overrun = true) ∧
    (∃ t, step (overrun .reset) = .next t ∧ t.overrun = false) ∧
    (∃ t, step (overrun (.write 0x00 8 0x2)) = .next t ∧ t.overrun = false ∧ WriteNext (overrun (.write 0x00 8 0x2)) 0x00 8 0x2) ∧
    ∃ t, step (overrun .engine) = .next t ∧ EngineNext (overrun .engine) :=
  ⟨⟨_, rfl, rfl⟩, ⟨_, rfl, rfl⟩, ⟨_, rfl, rfl, rfl⟩, ⟨_, rfl, .inr rfl⟩⟩

theorem witness_CmdWriteWhileBusyIsDropped :
    CmdWriteNext (building 0x0000000B ArgRegs.zero [.write 0x08 8 0x06]) 0x00000006 ∧
      (building 0x0000000B ArgRegs.zero [.write 0x08 8 0x06]).busy = true :=
  ⟨⟨8, 0x06, .inr rfl, rfl, by decide⟩, rfl⟩

theorem witness_StatusReadsItsFields :
    ReadNext (script [.read 0x00 8]) 0x00 8 ∧ (script [.read 0x00 8]).registry = .uninitialized ∧
      (building 0x0000000B ArgRegs.zero [.read 0x00 8]).registry = .building ∧
      (∃ tables, (running 0 ArgRegs.zero [.read 0x00 8]).registry = .ready tables) ∧ WriteNext (overrun (.write 0x00 4 0x2)) 0x00 4 0x2 ∧
      WriteNext (overrun (.write 0x00 8 0x2)) 0x00 8 0x2 ∧ WriteNext (overrun (.write 0x04 4 0x2)) 0x04 4 0x2 :=
  ⟨rfl, rfl, rfl, ⟨_, rfl⟩, rfl, rfl, rfl⟩

/-- FINAL of CRC-32 about to complete with ERR and RESULT from before. -/
def finalNext (es : List Event) : State :=
  { running 0x00008405 (updateArgs 0x340BC6D9 0 0) es with err := .notReady, result := 1 }

theorem witness_ErrChangesOnlyAtCompletion :
    nextWith (step (finalNext [.engine])) (fun t => t.err == .ok) = true ∧
      nextWith (step (finalNext [.reset])) (fun t => t.err == .ok) = true ∧ ResetNext (finalNext [.reset]) := by
  refine ⟨?_, ?_, rfl⟩ <;> decide +kernel

theorem witness_ResultChangesOnlyAtCompletion :
    nextWith (step (finalNext [.engine])) (fun t => t.result == 0xCBF43926) = true ∧
      nextWith (step (finalNext [.reset])) (fun t => t.result == 0) = true ∧ ResetNext (finalNext [.reset]) := by
  refine ⟨?_, ?_, rfl⟩ <;> decide +kernel

/-! ### witnesses: the HOST's window -/

theorem witness_ArgumentRegistersReadBack :
    WriteNext (script [.write 0x18 8 0x77]) 0x18 8 0x77 ∧ WriteNext (script [.write 0x60 8 1]) 0x60 8 1 ∧
      (0x18, (0xFFFFFFFFFFFFFFFF : Word)) ∈ argumentRegisters ∧ (0x60, (0xFFFFFFFFFFFFFFFF : Word)) ∈ argumentRegisters :=
  ⟨rfl, rfl, by decide, by decide⟩

theorem witness_HalfAccessesTouchOneHalf :
    WriteNext (script [.write 0x48 4 1]) 0x48 4 1 ∧ WriteNext (script [.write 0x4C 4 1]) (0x48 + 4) 4 1 ∧
      ReadNext (script [.read 0x48 4]) 0x48 4 ∧ ReadNext (script [.read 0x64 4]) (0x60 + 4) 4 ∧
      (0x48, (0xFFFFFFFF : Word)) ∈ argumentRegisters ∧ (0x60, (0xFFFFFFFFFFFFFFFF : Word)) ∈ argumentRegisters :=
  ⟨rfl, rfl, rfl, rfl, by decide, by decide⟩

theorem witness_ReadOnlyRegistersIgnoreWrites :
    WriteNext (script [.write 0x10 8 1]) 0x10 8 1 ∧ WriteNext (script [.write 0x68 4 1]) 0x68 4 1 ∧
      WriteNext (script [.write 0x6C 4 1]) (0x68 + 4) 4 1 ∧ WriteNext (script [.write 0x00 8 0xFFFFFFFFFFFFFFFD]) 0x00 8
        0xFFFFFFFFFFFFFFFD ∧ (0xFFFFFFFFFFFFFFFD : Word).getLsbD 1 = false :=
  ⟨rfl, rfl, rfl, rfl, by decide⟩

theorem witness_ReservedOffsetsReadZeroIgnoreWrites :
    (script []).hw.conforming = true ∧ accessLegal 0x0C 4 = true ∧ accessLegal 0x70 8 = true ∧ accessLegal 0xFC 4 = true ∧
      accessLegal 0x120 1 = true ∧ accessLegal 0xFFF 1 = true ∧ 0x100 + (script []).hw.nameMax ≤ 0x120 ∧
      WriteNext (script [.write 0xFFF 1 1]) 0xFFF 1 1 ∧ ReadNext (script [.read 0x0C 4]) 0x0C 4 :=
  ⟨conforming_example, by decide, by decide, by decide, by decide, by decide, by decide, rfl, rfl⟩

theorem witness_HwcfgReportsTheInstance :
    (script [.read 0x68 8]).hw.conforming = true ∧ ReadNext (script [.read 0x68 8]) 0x68 8 ∧
      WriteNext (script [.write 0x68 8 1]) 0x68 8 1 :=
  ⟨conforming_example, rfl, rfl⟩

theorem witness_BufferAccessesAreLittleEndian :
    (script []).hw.conforming = true ∧
    (∀ p ∈ [(0x100, 8), (0x11F, 1), (0x1000, 4), (0x1FFE, 2)],
      accessLegal p.1 p.2 = true ∧ inBuffer (script []).hw p.1 = true) ∧
    (WriteNext (script [.write 0x1FFE 2 0xABCD]) 0x1FFE 2 0xABCD ∧ (script [.write 0x1FFE 2 0xABCD]).busy = false) ∧
    (WriteNext (running 0x00000104 ArgRegs.zero [.write 0x1FFE 2 0xABCD]) 0x1FFE 2 0xABCD ∧
      (running 0x00000104 ArgRegs.zero [.write 0x1FFE 2 0xABCD]).busy = true) ∧
    ReadNext (script [.read 0x11F 1]) 0x11F 1 :=
  ⟨conforming_example, by decide +kernel, ⟨rfl, rfl⟩, ⟨rfl, rfl⟩, rfl⟩

theorem witness_BadAccessesGetABusError :
    WriteNext (script [.write 0xFC 1 1]) 0xFC 1 1 ∧ WriteNext (script [.write 0x100 3 1]) 0x100 3 1 ∧
      ReadNext (script [.read 0x102 4]) 0x102 4 ∧ ReadNext (script [.read 0x1FF8 8]) 0x1FF8 8 ∧
      0x1FFF < 0x1000 + (script []).hw.dbufSize ∧ (script []).hw.conforming = true :=
  ⟨rfl, rfl, rfl, rfl, by decide, conforming_example⟩

theorem witness_ReadsHaveNoSideEffect :
    (ReadNext (script [.read 0x00 8]) 0x00 8 ∧ accessLegal 0x00 8 = true) ∧
      (ReadNext (script [.read 0xFE 2]) 0xFE 2 ∧ accessLegal 0xFE 2 = false) ∧
      (ReadNext (script [.read 0x1FFF 1]) 0x1FFF 1 ∧ accessLegal 0x1FFF 1 = true) ∧
      0x1FFF < 0x1000 + (script []).hw.dbufSize :=
  ⟨⟨rfl, by decide⟩, ⟨rfl, by decide⟩, ⟨rfl, by decide⟩, by decide⟩

theorem witness_ReadsHaveNoSideEffect_registers :
    (0x08, (0 : Word)) ∈ registerValues State.reset ∧ (0x10, (1 : Word)) ∈ registerValues (finalNext []) ∧
      0xF8 % 8 = 0 ∧ 0xF8 < 0x100 :=
  ⟨by decide, by decide, by decide, by decide⟩

theorem witness_AccessOutsideTheWindowFaults :
    (script []).hw.base + (0x1000 + (script []).hw.dbufSize) ≤ 0x2000 ∧
      0x0FFF < { Config.exampleInstance with base := 0x1000 }.base ∧
      (script [.write 0x2000 4 1]).inputs.head? = some (.write 0x2000 4 1) ∧
      (script [.read 0x2000 4]).inputs.head? = some (.read 0x2000 4) :=
  ⟨by decide, by decide, rfl, rfl⟩

/-! ### witnesses: completion -/

theorem witness_EveryCommandEndsInAStatusCode :
    (pending 0x00000000 ArgRegs.zero State.reset).busy = true ∧ (pending 0x00008403 ArgRegs.zero State.reset).busy = true :=
  ⟨rfl, rfl⟩

theorem witness_PendingCommandCompletes :
    (building 0x0000000B ArgRegs.zero []).busy = true ∧ EngineNext (building 0x0000000B ArgRegs.zero []) ∧
      EngineNext (building 0x0000000B ArgRegs.zero [.engine]) :=
  ⟨rfl, .inl rfl, .inr rfl⟩

theorem witness_CommandFrame :
    nextWith (exec (.release 0x01) (slotted crc8)) (fun t => t.err == .ok) = true ∧
      nextWith (exec .build (building 0x0000000B ArgRegs.zero [])) (fun t => t.err == .ok) = true ∧
      (slotted crc8).registry ≠ .building :=
  ⟨by decide +kernel, by decide +kernel, nofun⟩

/-- An error without a build, CHECK_MISMATCH, and LOOKUP_PRE's NAME_RANGE after its build. -/
theorem witness_ErrorsChangeNothingElse :
    (Inv (running 0x00000002 ArgRegs.zero []) ∧ (running 0x00000002 ArgRegs.zero []).busy = true ∧
      nextWith (engineTurn (running 0x00000002 ArgRegs.zero [])) (fun t => t.err == .slotEmpty) = true) ∧
    (Inv (running 0x00000001 (cfgArgs 0x408 0xF5) []) ∧
      nextWith (engineTurn (running 0x00000001 (cfgArgs 0x408 0xF5) [])) (fun t => t.err == .checkMismatch) = true) ∧
    (Inv (building 0x00000006 (nameArgs 33) []) ∧ (building 0x00000006 (nameArgs 33) []).busy = true ∧
      nextWith (engineTurn (building 0x00000006 (nameArgs 33) [])) (fun t => t.err == .nameRange) = true) :=
  ⟨⟨inv_running _ _ _, rfl, by decide +kernel⟩, ⟨inv_running _ _ _, by decide +kernel⟩,
    ⟨inv_building _ _ _ rfl, rfl, by decide +kernel⟩⟩

/-- Every way of R95 at its boundary, on a state with slot 1 valid and six entries built. -/
theorem witness_HandleCheckFollowsTheRule :
    Inv (running 0 ArgRegs.zero []) ∧ (Instr.init 0x85).wf = true ∧ usesH (Instr.init 0x85).opcode = true ∧
      handleCode 0x03 0x85 (buildIfDue (running 0 ArgRegs.zero [])) = none ∧
      handleCode 0x03 0x86 (buildIfDue (running 0 ArgRegs.zero [])) = some .badHandle ∧
      handleCode 0x01 0x84 (buildIfDue (running 0 ArgRegs.zero [])) = some .badHandle ∧
      handleCode 0x03 0x40 (buildIfDue (running 0 ArgRegs.zero [])) = some .badHandle ∧
      handleCode 0x03 0x10 (buildIfDue (running 0 ArgRegs.zero [])) = some .badHandle ∧
      handleCode 0x03 0x0F (buildIfDue (running 0 ArgRegs.zero [])) = some .slotEmpty ∧
      handleCode 0x01 0x01 (buildIfDue (running 0 ArgRegs.zero [])) = some .slotInUse ∧
      handleCode 0x01 0x00 (buildIfDue (running 0 ArgRegs.zero [])) = none ∧
      Inv (script []) ∧ handleCode 0x03 0x85 (buildIfDue (script [])) = some .notReady := by
  refine ⟨inv_running _ _ _, rfl, rfl, ?_, ?_, ?_, ?_, ?_, ?_, ?_, ?_, inv_script _, ?_⟩ <;> decide +kernel

/-! ### witnesses: each command -/

/-- Handle 0x01 names the model in slot 1, before or after a build that is not due. -/
theorem names_slotted (m : Model) (c : Cmd) (a : ArgRegs) : NamesModel (buildIfDue (pending c a (slotted m))) 0x01 m := by
  refine .inr ⟨rfl, rfl, (by decide : 1 < 16), ?_⟩
  have h : slotAt (slotted m) 1 = some m := by simp [slotAt_slotted]
  exact h

/-- Handle 0x85 names the last catalog entry. -/
theorem names_catalog (c : Cmd) (a : ArgRegs) :
    NamesModel (buildIfDue (pending c a ready)) 0x85 (construct Config.crc64Xz) :=
  .inl ⟨rfl, Config.crc64Xz, _, _, rfl, rfl, rfl, rfl⟩

theorem witness_InitReturnsTheInitialRegister :
    NamesModel (buildIfDue (pending 0x00008503 ArgRegs.zero ready)) 0x85 (construct Config.crc64Xz) ∧
      NamesModel (buildIfDue (pending 0x00000103 ArgRegs.zero (slotted wide16))) 0x01 wide16 :=
  ⟨names_catalog _ _, names_slotted _ _ _⟩

theorem witness_UpdateFoldsTheBytes :
    NamesModel (buildIfDue (pending 0x00000104 (updateArgs 0x1F 4090 6) (slotted crc8))) 0x01 crc8 ∧
      (4090 : BitVec 32).toNat + (6 : BitVec 32).toNat ≤ (slotted crc8).hw.dbufSize ∧
      (updateArgs 0x1F 4090 6).regIn &&& ~~~ mask crc8.width = 0 :=
  ⟨names_slotted _ _ _, by decide +kernel, by decide +kernel⟩

theorem witness_UpdateRangeErrors :
    NamesModel (buildIfDue (pending 0x00000104 (updateArgs 0x100 4090 7) (slotted crc8))) 0x01 crc8 ∧
      (slotted crc8).hw.dbufSize < (4090 : BitVec 32).toNat + (7 : BitVec 32).toNat ∧
      (slotted crc8).hw.dbufSize < (0xFFFFFFFF : BitVec 32).toNat + (1 : BitVec 32).toNat ∧
      (4096 : BitVec 32).toNat + (0 : BitVec 32).toNat ≤ (slotted crc8).hw.dbufSize ∧
      (0x100 : Word) &&& ~~~ mask crc8.width ≠ 0 :=
  ⟨names_slotted _ _ _, by decide +kernel, by decide +kernel, by decide +kernel, by decide +kernel⟩

theorem witness_FinalReturnsTheChecksum :
    NamesModel (buildIfDue (pending 0x00000105 (updateArgs 0xABCD1F 0 0) (slotted crc8))) 0x01 crc8 :=
  names_slotted _ _ _

theorem witness_CheckComparesTheSelfCheck :
    NamesModel (buildIfDue (pending 0x00000108 ArgRegs.zero (slotted wide16))) 0x01 wide16 ∧
      initReg wide16 &&& ~~~ mask wide16.width ≠ 0 ∧ initReg crc8 &&& ~~~ mask crc8.width = 0 ∧
      finalReg crc8 (updateBytes crc8 (initReg crc8) [0x31, 0x32, 0x33, 0x34, 0x35, 0x36, 0x37, 0x38, 0x39]) = crc8.check ∧
      finalReg crc8Wrong (updateBytes crc8Wrong (initReg crc8Wrong)
        [0x31, 0x32, 0x33, 0x34, 0x35, 0x36, 0x37, 0x38, 0x39]) ≠ crc8Wrong.check :=
  ⟨names_slotted _ _ _, by decide +kernel, by decide +kernel, by decide +kernel, by decide +kernel⟩

theorem witness_TblrdReturnsTheEntry :
    NamesModel (buildIfDue (pending 0x00FF0109 ArgRegs.zero (slotted crc8))) 0x01 crc8 ∧
      crc8.table = buildTable crc8.width crc8.poly crc8.refin :=
  ⟨names_slotted _ _ _, crc8_ok.tableBuilt⟩

theorem witness_ParamrdReturnsTheField :
    NamesModel (buildIfDue (pending 0x0084010A ArgRegs.zero (slotted crc8))) 0x01 crc8 ∧
      (∀ sel ∈ [0x00#8, 0x06, 0x80, 0xFF], sel.toNat ≤ 0x06 ∨ 0x80 ≤ sel.toNat) ∧
      crc8.name[4]? = some 0x38 ∧ (0x84 : BitVec 8).toNat = 0x80 + 4 ∧ crc8.name.length ≤ 5 ∧
      (0x85 : BitVec 8).toNat = 0x80 + 5 :=
  ⟨names_slotted _ _ _, by decide, rfl, rfl, by decide +kernel, rfl⟩

theorem witness_BuildMakesTheCatalogReady :
    (building 0x0000000B ArgRegs.zero []).registry = .building ∧ ready.registry ≠ .building ∧
      Config.exampleInstance.catalog[5]? = some Config.crc64Xz :=
  ⟨rfl, nofun, rfl⟩

/-- NBUF holds "CRC-32"; a lookup is pending with that many name bytes. -/
def lookupState (n : BitVec 8) : State := pending 0x00000006 (nameArgs n) (fill 0x100 nameCrc32 (slotted crc8))

theorem nameOperand_lookupState : nameOperand (lookupState 6) = nameCrc32 := by decide +kernel

theorem witness_LookupPreFindsTheName :
    (lookupState 33).hw.nameMax < (lookupState 33).pend.args.nameLen.toNat ∧
    (lookupState 32).pend.args.nameLen.toNat ≤ (lookupState 32).hw.nameMax ∧
    (Config.exampleInstance.catalog[4]? = some Config.crc32 ∧ NameMatches (lookupState 6) Config.crc32.name ∧
      ∀ (j : Nat) (q : Params), j < 4 → Config.exampleInstance.catalog[j]? = some q → ¬NameMatches (lookupState 6) q.name) ∧
    ∀ p ∈ Config.exampleInstance.catalog, ¬NameMatches (lookupState 0) p.name := by
  refine ⟨by decide +kernel, by decide +kernel, ⟨rfl, ?_, ?_⟩, ?_⟩
  · rw [nameMatches_iff, nameOperand_lookupState]
    rfl
  · intro j q hj hq
    rw [nameMatches_iff, nameOperand_lookupState]
    interval_cases j <;> cases hq <;> decide
  · simp only [nameMatches_iff]
    decide +kernel

/-- Slots 1 and 3 hold models named "CRC-8"; NBUF holds that name. -/
def listState (mask : Word) : State :=
  pending 0x00000007 { nameArgs 5 with slotMask := mask } (fill 0x100 Config.crc8.name (setSlot 3 (some crc8) (slotted crc8)))

theorem witness_LookupListFindsTheLowestSlot :
    (lookupState 33).hw.nameMax < (lookupState 33).pend.args.nameLen.toNat ∧
    (listState 0xFFFFFFFFFFFFFFFF).pend.args.nameLen.toNat ≤ (listState 0xFFFFFFFFFFFFFFFF).hw.nameMax ∧
    ((1 : BitVec 6).toNat < (listState 0xA).hw.nUser ∧ (listState 0xA).pend.args.slotMask.getLsbD (1 : BitVec 6).toNat = true ∧
      (∃ m, slotAt (listState 0xA) 1 = some m ∧ NameMatches (listState 0xA) m.name) ∧
      ∀ k' : BitVec 6, k' < 1 → (listState 0xA).pend.args.slotMask.getLsbD k'.toNat = false) ∧
    ∀ k : BitVec 6, (listState 0x5).pend.args.slotMask.getLsbD k.toNat = true → slotAt (listState 0x5) k = none := by
  have h : ∀ mask k, slotAt (listState mask) k = if k = 3 then some crc8 else if k = 1 then some crc8 else none := by
    intro mask k
    have e : slotAt (listState mask) k = slotAt (setSlot 3 (some crc8) (slotted crc8)) k := rfl
    rw [e, slotAt_setSlot, slotAt_slotted]
  refine ⟨by decide +kernel, by decide +kernel, ⟨by decide +kernel, by decide +kernel, ⟨crc8, by simp [h], ?_⟩, by decide +kernel⟩, ?_⟩
  · rw [nameMatches_iff]
    decide +kernel
  · intro k hk
    rw [h]
    revert hk
    revert k
    decide +kernel

/-- CFG of slot 15, the last, with VERIFY = 1 and 0. -/
theorem witness_CfgCommitsTheModel :
    handleIsCatalog 0x0F = false ∧ handleIsVoid 0x0F = false ∧ (handleSlot 0x0F).toNat < ready.hw.nUser ∧
      slotAt (pending 0x00000F01 (cfgArgs 0x408 0xF4) ready) (handleSlot 0x0F) = none ∧
      (cfgArgs 0x408 0xF4).nameLen.toNat ≤ ready.hw.nameMax ∧
      ((cfgArgs 0x408 0xF4).argCfg.extractLsb' 0 8).toNat = Width.w8.bits ∧
      (cfgArgs 0x408 0xF4).argCfg.getLsbD 10 = true ∧
      selfCheck (construct (cfgParams .w8 (pending 0x00000F01 (cfgArgs 0x408 0xF4) ready))) = some (cfgArgs 0x408 0xF4).argCheck ∧
      (cfgArgs 0x008 0xF5).argCfg.getLsbD 10 = false := by
  refine ⟨rfl, rfl, ?_, ?_, ?_, ?_, ?_, ?_, ?_⟩ <;> decide +kernel

/-- Each clause: no user slot (0x80, 0x40, 0x10), slot in use, name too long, width 12, self-check out of range, wrong
self-check. -/
theorem witness_CfgFailsWithoutACommit :
    handleIsCatalog 0x80 = true ∧ handleIsVoid 0x40 = true ∧ ready.hw.nUser ≤ (handleSlot 0x10).toNat ∧
      (∃ m, slotAt (slotted crc8) (handleSlot 0x01) = some m) ∧ slotAt (slotted crc8) (handleSlot 0x00) = none ∧
      ready.hw.nameMax < (nameArgs 33).nameLen.toNat ∧
      (∀ w ∈ [Width.w8, .w16, .w24, .w32, .w40, .w48, .w56, .w64],
        ((cfgArgs 12 0).argCfg.extractLsb' 0 8).toNat ≠ w.bits) ∧
      selfCheck (construct (cfgParams .w16
        (pending 0x00000101 { ArgRegs.zero with argCfg := 0x410, argInit := 0x10001 } ready))) = none ∧
      selfCheck (construct (cfgParams .w8 (pending 0x00000101 (cfgArgs 0x408 0xF5) ready))) = some 0xF4 ∧
      (0xF4 : Word) ≠ (cfgArgs 0x408 0xF5).argCheck := by
  refine ⟨rfl, rfl, by decide +kernel, ⟨crc8, by rw [slotAt_slotted]; rfl⟩, by rw [slotAt_slotted]; rfl, ?_, ?_, ?_, ?_, ?_⟩ <;>
    decide +kernel

theorem witness_ReleaseFreesTheSlot :
    handleIsCatalog 0x01 = false ∧ handleIsVoid 0x01 = false ∧ (handleSlot 0x01).toNat < (slotted crc8).hw.nUser ∧
      (∃ m, slotAt (slotted crc8) (handleSlot 0x01) = some m) ∧ slotAt (slotted crc8) (handleSlot 0x0F) = none ∧
      handleIsCatalog 0x84 = true :=
  ⟨rfl, rfl, by decide +kernel, ⟨crc8, by rw [slotAt_slotted]; rfl⟩, by rw [slotAt_slotted]; rfl, rfl⟩

/-! ### witnesses: CRC functions and whole-machine rules -/

theorem witness_TableProperties : (0x18000000000 : Word) &&& mask .w8 = 0 := by decide

theorem witness_StepIndexAndRange :
    (0xFFFF : Word) &&& ~~~ mask wide16.width = 0 ∧ (0xFF : Word) &&& ~~~ mask crc8.width = 0 ∧ crc8.width = .w8 :=
  ⟨by decide +kernel, by decide +kernel, rfl⟩

theorem witness_TableDrivenUpdateIsPolynomialDivision :
    crc8.table = buildTable crc8.width crc8.poly crc8.refin ∧ crc8.poly &&& mask crc8.width = crc8.poly ∧
      (0xFF : Word) &&& ~~~ mask crc8.width = 0 :=
  ⟨crc8_ok.tableBuilt, crc8_ok.polyMasked, by decide +kernel⟩

theorem witness_ChunkedUpdatesEqualOneUpdate :
    (pending 0x00000104 (updateArgs 0x1F 4087 9) (slotted crc8)).hw.conforming = true ∧
      (4 : BitVec 32).toNat + (5 : BitVec 32).toNat = (updateArgs 0x1F 4087 9).dataLen.toNat ∧
      nextWith (exec (.update 0x01) (pending 0x00000104 (updateArgs 0x1F 4087 9) (slotted crc8)))
        (fun t => t.err == .ok) = true :=
  ⟨conforming_example, by decide, by decide +kernel⟩

theorem witness_EveryCatalogEntryPassesCheck :
    Inv (running 0x00008508 ArgRegs.zero []) ∧ regstate (running 0x00008508 ArgRegs.zero []).registry = 0b10 ∧
      handleIsCatalog 0x85 = true ∧ Config.exampleInstance.catalog[(handleEntry 0x85).toNat]? = some Config.crc64Xz :=
  ⟨inv_running _ _ _, rfl, rfl, rfl⟩

theorem witness_StepKeepsTheInvariant :
    Inv (running 0x00000102 ArgRegs.zero []) ∧
      nextWith (step (running 0x00000102 ArgRegs.zero [])) (fun t => (slotAt t 1).isNone) = true :=
  ⟨inv_running _ _ _, by decide +kernel⟩

theorem witness_ResetMeetsTheInvariant : Config.exampleInstance.conforming = true := conforming_example

theorem witness_ValidSlotsAreImmutable :
    slotAt (running 0x00000102 ArgRegs.zero []) 1 = some crc8 ∧
      (1 : BitVec 6).toNat < (running 0x00000102 ArgRegs.zero []).hw.nUser ∧
      nextWith (step (running 0x00000102 ArgRegs.zero [])) (fun t => (slotAt t 1).isNone) = true ∧
      nextWith (step (running 0x00000102 ArgRegs.zero [.read 0 8])) (fun t => (slotAt t 1).isSome) = true :=
  ⟨(slotAt_slotted crc8 1).trans rfl, by decide +kernel, by decide +kernel, by decide +kernel⟩

theorem witness_RegstateTransitions :
    (Inv (script [.write 0x08 4 0x0B]) ∧ CmdWriteNext (script [.write 0x08 4 0x0B]) 0x0000000B ∧
      nextWith (step (script [.write 0x08 4 0x0B])) (fun t => regstate t.registry == 0b01) = true) ∧
    (Inv (building 0x00000006 ArgRegs.zero [.engine]) ∧ EngineNext (building 0x00000006 ArgRegs.zero [.engine]) ∧
      nextWith (step (building 0x00000006 ArgRegs.zero [.engine])) (fun t => regstate t.registry == 0b10) = true) ∧
    (Inv (running 0 ArgRegs.zero [.reset]) ∧
      nextWith (step (running 0 ArgRegs.zero [.reset])) (fun t => regstate t.registry == 0b00) = true) :=
  ⟨⟨inv_script _, ⟨4, 0x0B, .inl rfl, rfl, by decide⟩, by decide +kernel⟩,
    ⟨inv_building _ _ _ rfl, .inr rfl, by decide +kernel⟩, ⟨inv_running _ _ _, by decide +kernel⟩⟩

theorem witness_ReadyCatalogIsImmutable :
    (∃ tables, (running 0x0000000B ArgRegs.zero [.engine]).registry = .ready tables) ∧
      ∃ t, step (running 0x0000000B ArgRegs.zero [.engine]) = .next t :=
  ⟨⟨_, rfl⟩, ⟨_, rfl⟩⟩

theorem witness_ArgumentWritesDoNotReachThePendingCommand :
    nextWith (exec (.final 0x84) (finalNext [])) (fun t => t.result == 0xCBF43926) = true := by
  decide +kernel

theorem witness_BufferWritesElsewhereAreHarmless :
    ¬ReadsByte (.update 0x01) (pending 0x00000104 (updateArgs 0x1F 4087 9) (slotted crc8)) (0x1000 + 4086) ∧
    ¬ReadsByte (.update 0x01) (pending 0x00000104 (updateArgs 0x1F 4086 9) (slotted crc8)) (0x1000 + 4095) ∧
    ¬ReadsByte .lookupPre (lookupState 6) 0x106 ∧ ¬ReadsByte .build (lookupState 6) 0x100 ∧
    nextWith (exec (.update 0x01) (pending 0x00000104 (updateArgs 0x1F 4087 9) (slotted crc8)))
      (fun t => t.err == .ok) = true := by
  refine ⟨?_, ?_, ?_, id, ?_⟩ <;> first | (unfold ReadsByte; decide +kernel) | decide +kernel

theorem witness_UnstableBytesAreFreeValues :
    (pending 0x00000104 ArgRegs.zero ready).busy = true ∧ 0x1000 ∉ (pending 0x00000104 ArgRegs.zero ready).raced ∧
      ∀ b, (0x1000, b) ∉ (pending 0x00000104 ArgRegs.zero ready).mem :=
  ⟨rfl, nofun, nofun⟩

theorem witness_ResetClearsTheMachine : ResetNext (running 0x00008405 ArgRegs.zero [.reset]) := rfl

theorem witness_IdleEngineDoesNothing : (script []).busy = false ∧ EngineNext (script []) ∧ EngineNext (script [.engine]) :=
  ⟨rfl, .inl rfl, .inr rfl⟩

end Sys2Proof.Tests
end

/-! ## The frame of every command, and the invariant of a run -/

namespace Sys2Proof.Machine

open Sys2Proof

/-! ### What a buffer byte depends on -/

/-- A buffer byte depends on the written bytes and the number of the reset alone (R263). -/
theorem bufferByte_congr {s t : State} (hm : t.mem = s.mem) (he : t.epoch = s.epoch) (off : Nat) :
    bufferByte t off = bufferByte s off := by
  simp only [bufferByte, hm, he]

/-- What a command sees of a byte depends besides on the bytes written under it and the number of its acceptance
(R266). -/
theorem commandByte_congr {s t : State} (hm : t.mem = s.mem) (he : t.epoch = s.epoch) (hr : t.raced = s.raced)
    (hd : t.draw = s.draw) (off : Nat) : commandByte t off = commandByte s off := by
  simp only [commandByte, hr, hd, bufferByte_congr hm he]

/-! ### Slots and the registry -/

/-- A user handle that passes the check names its own slot, one that exists (R94, R95). -/
theorem userSlot_ok {hw : HwConfig} {h : BitVec 8} {k : BitVec 6} (e : userSlot hw h = .ok k) :
    k = handleSlot h ∧ k.toNat < hw.nUser := by
  obtain ⟨-, -, rfl, hk⟩ := (userSlot_eq_ok hw h k).1 e
  exact ⟨rfl, hk⟩

/-- The build and the setting of one slot leave every other slot. -/
theorem slotAt_setSlot_buildIfDue (k k' : BitVec 6) (v : Option Model) (s : State) :
    slotAt (setSlot k v (buildIfDue s)) k' = slotAt s k' ∨ k' = k := by
  rw [slotAt_setSlot, slotAt_buildIfDue]
  split
  · exact .inr ‹_›
  · exact .inl rfl

theorem builtRegistry_of_ne_building {hw : HwConfig} {r : Registry} (h : r ≠ .building) : builtRegistry hw r = r := by
  cases r with
  | building => exact absurd rfl h
  | uninitialized | ready => rfl

/-- After the build the tables are the ones that stood or the ones R209 gives. -/
theorem builtRegistry_eq_ready {hw : HwConfig} {r : Registry} {ts : List Table} (h : builtRegistry hw r = .ready ts) :
    r = .ready ts ∨ ts = catalogTables hw.catalog := by
  cases r with
  | uninitialized => cases h
  | building => cases h; exact .inr rfl
  | ready => exact .inl h

/-- Acceptance neither makes nor loses a built registry (R208). -/
theorem registryAtAcceptance_eq_ready {c : Cmd} {r : Registry} {ts : List Table}
    (h : registryAtAcceptance c r = .ready ts) : r = .ready ts := by
  cases r with
  | uninitialized => rw [registryAtAcceptance] at h; split at h <;> cases h
  | building => cases h
  | ready => exact h

/-- BUILDING after an acceptance was there before or comes of a triggering word (R208). -/
theorem registryAtAcceptance_eq_building {c : Cmd} {r : Registry} (h : registryAtAcceptance c r = .building) :
    r = .building ∨ triggersBuild c = true := by
  cases r with
  | uninitialized =>
    refine .inr (by_contra fun hc => ?_)
    simp [registryAtAcceptance, hc] at h
  | building => exact .inl rfl
  | ready => cases h

/-! ### The frame of a completion -/

/-- The fields no command's completion changes, however it ends. -/
theorem Completion.fields {i : Instr} {s t : State} (hc : Completion i s (.next t)) :
    t.hw = s.hw ∧ t.overrun = s.overrun ∧ t.args = s.args ∧ t.pend = s.pend ∧ t.mem = s.mem ∧ t.raced = s.raced ∧
      t.draw = s.draw ∧ t.epoch = s.epoch ∧ t.inputs = s.inputs ∧ t.resp = s.resp := by
  cases hc <;> simp

/-- A completion writes at most the slot its command's handle names, and that only for CFG and RELEASE (R130, R134). -/
theorem Completion.slotAt {i : Instr} {s t : State} (hc : Completion i s (.next t)) (k : BitVec 6) :
    slotAt t k = slotAt s k ∨ ((i = .cfg i.handle ∨ i = .release i.handle) ∧ k = handleSlot i.handle) := by
  cases hc with
  | illegal | error | result | done => exact .inl (by simp [Machine.slotAt])
  | filled h k' w hi hk =>
    subst hi
    exact (slotAt_setSlot_buildIfDue k' k _ s).imp_right fun e => ⟨.inl rfl, e.trans (userSlot_ok hk).1⟩
  | freed h k' m hi hk =>
    subst hi
    exact (slotAt_setSlot_buildIfDue k' k _ s).imp_right fun e => ⟨.inr rfl, e.trans (userSlot_ok hk).1⟩

/-- RELEASE and BUILD leave RESULT (R134, R210). -/
theorem Completion.result_of_release_or_build {i : Instr} {s t : State} (hc : Completion i s (.next t))
    (hi : i = .release i.handle ∨ i = .build) : t.result = s.result := by
  cases hc with
  | illegal | error | freed | done => simp
  | result v c h hne => exact absurd hi (not_or.2 ⟨hne.2 _, hne.1⟩)
  | filled h k w hcfg => subst hcfg; simp at hi

/-- A completion leaves the registry, but for the legal command's build when it was due (R96, R209). -/
theorem Completion.registry {i : Instr} {s t : State} (hc : Completion i s (.next t)) :
    (i.wf = false ∧ t.registry = s.registry) ∨ t.registry = builtRegistry s.hw s.registry := by
  cases hc with
  | illegal h => exact .inl ⟨h, rfl⟩
  | error | result | filled | freed | done => exact .inr (by simp)

/-! ### Well-formed models, and the words that trigger the build -/

/-- A constructed model is proper when its name fits (R38, R40, R128). -/
theorem modelOk_construct {hw : HwConfig} {p : Params} (h : p.name.length ≤ hw.nameMax) :
    ModelOk hw (construct p) where
  nameFits := h
  polyMasked := by simp
  tableBuilt := by simp

@[simp] theorem cfgParams_name_length (w : Width) (s : State) :
    (cfgParams w s).name.length = s.pend.args.nameLen.toNat := by
  simp [cfgParams, nameOperand]

/-- The two words that trigger the build are legal (R208). -/
theorem decode_of_triggersBuild {c : Cmd} (h : triggersBuild c = true) : ∃ i, decode c = .ok i := by
  simp only [triggersBuild, Bool.or_eq_true, beq_iff_eq] at h
  rcases h with rfl | rfl
  · exact ⟨.lookupPre, rfl⟩
  · exact ⟨.build, rfl⟩

/-! ### The invariant under each operation on the state -/

namespace Inv

variable {s t : State}

/-- The invariant reads seven fields. -/
theorem congr (hi : Inv s) (hw : t.hw = s.hw) (mem : t.mem = s.mem) (raced : t.raced = s.raced)
    (slots : t.slots = s.slots) (registry : t.registry = s.registry) (busy : t.busy = s.busy)
    (pend : t.pend = s.pend) : Inv t := by
  constructor <;> simp only [hw, mem, raced, slotAt_congr slots, registry, busy, pend]
  · exact hi.conforming
  · exact hi.memoryForm
  · exact hi.memoryPlaces
  · exact hi.racedPlaces
  · exact hi.slotsExist
  · exact hi.slotsOk
  · exact hi.tablesBuilt
  · exact hi.buildingBusy

/-- RESET leaves nothing but the instance (R260). -/
theorem assertReset (hi : Inv s) : Inv (assertReset s) where
  conforming := hi.conforming
  memoryForm := rfl
  memoryPlaces := by simp
  racedPlaces := by simp
  slotsExist := by simp
  slotsOk := by simp
  tablesBuilt := by simp
  buildingBusy := by simp

/-- The build writes the tables R209 gives, and BUILDING is over. -/
theorem buildIfDue (hi : Inv s) : Inv (buildIfDue s) := by
  rw [buildIfDue_eq]
  exact { hi with
    tablesBuilt := fun ts h => (builtRegistry_eq_ready h).elim (hi.tablesBuilt ts) id
    buildingBusy := fun h => absurd h (builtRegistry_ne_building _ _) }

/-- A slot may be freed, or filled with a proper model when it exists. -/
theorem setSlot {k : BitVec 6} {v : Option Model} (hi : Inv s) (hk : k.toNat < s.hw.nUser)
    (hv : ∀ m, v = some m → ModelOk s.hw m) : Inv (setSlot k v s) := by
  refine { hi with slotsExist := fun k' m h => ?_, slotsOk := fun k' m h => ?_ } <;> rw [slotAt_setSlot] at h <;>
    split at h
  · rename_i e; exact e ▸ hk
  · exact hi.slotsExist k' m h
  · exact hv m h
  · exact hi.slotsOk k' m h

/-- A command may end, whatever its code and RESULT, when no build is due any more (R13, R96). -/
theorem ended {v : Word} {c : Code} (hi : Inv s) (hr : s.registry ≠ .building) :
    Inv { s with result := v, err := c, busy := false } :=
  { hi with buildingBusy := fun h => absurd h hr }

/-- Acceptance sets BUILDING only under a word that triggers the build (R36, R208). -/
theorem accept {c : Cmd} (hi : Inv s) (hb : s.busy = false) : Inv (accept c s) := by
  refine { hi with racedPlaces := by simp, tablesBuilt := fun ts h => ?_, buildingBusy := fun h => ⟨rfl, ?_⟩ }
  · exact hi.tablesBuilt ts (registryAtAcceptance_eq_ready h)
  · rcases registryAtAcceptance_eq_building h with hr | ht
    · exact absurd (hi.buildingBusy hr).1 (by simp [hb])
    · exact ht

/-- A HOST write keeps the invariant. -/
theorem write (hi : Inv s) (he : WriteEffect s t) : Inv t := by
  cases he with
  | nothing => exact hi
  | argument | overrunCleared | dropped => exact hi.congr rfl rfl rfl rfl rfl rfl rfl
  | accepted c hb => exact hi.accept hb
  | bytes m r hm hp hr =>
    exact { hi with
      memoryForm := hm hi.memoryForm
      memoryPlaces := fun c hc => (hp c hc).elim (hi.memoryPlaces c) id
      racedPlaces := fun off ho => (hr off ho).elim (hi.racedPlaces off) id }

/-- The completion of a legal command keeps the invariant: what it ends in is the state after the build, with a slot
freed or filled with a constructed model. -/
theorem completion {i : Instr} (hi : Inv s) (hwf : i.wf = true) (hc : Completion i s (.next t)) : Inv t := by
  have hb := hi.buildIfDue
  have hr : (Machine.buildIfDue s).registry ≠ .building := by simp
  cases hc with
  | illegal h => simp [hwf] at h
  | error | result | done => exact hb.ended hr
  | filled h k w _ hk _ hn =>
    have hm : ModelOk (Machine.buildIfDue s).hw (construct (cfgParams w s)) := modelOk_construct (by simpa using hn)
    exact (hb.setSlot (by simpa using (userSlot_ok hk).2) fun m e => Option.some.inj e ▸ hm).ended hr
  | freed h k m _ hk =>
    exact (hb.setSlot (v := none) (by simpa using (userSlot_ok hk).2) (by simp)).ended hr

/-- An illegal word is pending only while no build is due, so its ILLEGAL_COMMAND leaves no build behind (R96, R208). -/
theorem complete (hi : Inv s) (h : complete s = .next t) : Inv t := by
  rcases complete_cases s with ⟨e, hd, h'⟩ | ⟨i, hd, -, hc⟩
  · rw [h'] at h
    cases h
    refine hi.ended fun hr => ?_
    obtain ⟨i, hi'⟩ := decode_of_triggersBuild (hi.buildingBusy hr).2
    cases hd.symm.trans hi'
  · exact hi.completion (decode_wf hd) (h ▸ hc)

theorem popped (hi : Inv s) : Inv (popped s) := hi.congr rfl rfl rfl rfl rfl rfl rfl

/-- The answer the HOST got is no part of the invariant. -/
theorem setResp {r : BusResponse} (hi : Inv s) : Inv { s with resp := r } := hi.congr rfl rfl rfl rfl rfl rfl rfl

/-- Every step keeps the invariant. -/
theorem step (hi : Inv s) (h : step s = .next t) : Inv t := by
  cases step_effect h with
  | reset => exact hi.popped.assertReset
  | answered => exact hi.popped.setResp
  | written _ _ _ _ _ _ _ _ _ _ he => exact (hi.popped.write he).setResp
  | idle => exact hi.popped
  | completed _ _ _ hc => exact hi.popped.complete hc

end Inv

end Sys2Proof.Machine

section

open Sys2Proof Sys2Proof.Machine

/-- Settles O47: by the cases of a step; the completion of a command is the case that needs the build to be over. -/
theorem stepKeepsTheInvariant : Obligations.StepKeepsTheInvariant :=
  fun _ _ hi h => hi.step h

/-- Settles O24: every end of a completion (`Completion`) has the frame, field by field. -/
theorem commandFrame : Obligations.CommandFrame := by
  intro i s t h
  have hc : Completion i s (.next t) := h ▸ exec_completion i s
  obtain ⟨hw, overrun, args, pend, mem, raced, draw, epoch, inputs, resp⟩ := hc.fields
  refine ⟨hw, overrun, args, pend, bufferByte_congr mem epoch, commandByte_congr mem epoch raced draw, inputs, resp,
    hc.slotAt, hc.result_of_release_or_build, fun hr => ?_⟩
  rcases hc.registry with ⟨-, e⟩ | e
  · exact e
  · exact e.trans (builtRegistry_of_ne_building hr)

end

/-! ## The registers of the window, and a step by its event -/

namespace Sys2Proof.Machine

open Sys2Proof

/-! ### Where a register stands -/

/-- The offset of a register (R23). -/
def Reg.offset : Reg → Nat
  | .status => 0x00
  | .cmd => 0x08
  | .result => 0x10
  | .regIn => 0x18
  | .argCfg => 0x20
  | .argPoly => 0x28
  | .argInit => 0x30
  | .argXorout => 0x38
  | .argCheck => 0x40
  | .dataAddr => 0x48
  | .dataLen => 0x50
  | .nameLen => 0x58
  | .slotMask => 0x60
  | .hwcfg => 0x68

/-- The register map is `Reg.offset` read backwards. -/
theorem regAt_eq_some (off : Nat) (g : Reg) : regAt off = some g ↔ off = g.offset := by
  constructor
  · intro h
    unfold regAt at h
    split at h <;> cases h <;> rfl
  · rintro rfl
    cases g <;> rfl

@[simp] theorem regAt_offset (g : Reg) : regAt g.offset = some g := (regAt_eq_some _ g).2 rfl

theorem Reg.offset_le (g : Reg) : g.offset ≤ 0x68 := by cases g <;> decide

@[simp] theorem Reg.offset_mod (g : Reg) : g.offset % 8 = 0 := by cases g <;> rfl

theorem Reg.offset_lt (g : Reg) : g.offset < 0x100 := Nat.lt_of_le_of_lt g.offset_le (by decide)

/-- Above HWCFG no register stands (R43). -/
theorem regAt_of_gt {off : Nat} (h : 0x68 < off) : regAt off = none := by
  cases e : regAt off with
  | none => rfl
  | some g =>
    have hoff := (regAt_eq_some off g).1 e
    have hle := g.offset_le
    omega

/-! ### The three legal accesses of a register -/

/-- A legal access below NBUF is of a reserved offset, of a whole register or of one half of it (R64, R65). -/
theorem register_access_cases {off size : Nat} (hl : accessLegal off size = true) (hlt : off < 0x100) :
    regAt (off - off % 8) = none ∨
      ∃ g : Reg, (off = g.offset ∧ size = 8) ∨ (off = g.offset ∧ size = 4) ∨ (off = g.offset + 4 ∧ size = 4) := by
  cases e : regAt (off - off % 8) with
  | none => exact .inl rfl
  | some g =>
    have hg := (regAt_eq_some _ g).1 e
    simp only [accessLegal, hlt, if_true, Bool.and_eq_true, Bool.or_eq_true, beq_iff_eq] at hl
    obtain ⟨rfl | rfl, ha⟩ := hl
    · rcases (by omega : off % 8 = 0 ∨ off % 8 = 4) with h | h
      · exact .inr ⟨g, .inr (.inl ⟨by omega, rfl⟩)⟩
      · exact .inr ⟨g, .inr (.inr ⟨by omega, rfl⟩)⟩
    · exact .inr ⟨g, .inl ⟨by omega, rfl⟩⟩

theorem writeAt_reserved {off size : Nat} {v : Word} {s : State} (hlt : off < 0x100)
    (h : regAt (off - off % 8) = none) : writeAt off size v s = s := by
  simp [writeAt, hlt, writeWindowReg, h]

theorem readAt_reserved {off size : Nat} {s : State} (hlt : off < 0x100) (h : regAt (off - off % 8) = none) :
    readAt off size s = 0 := by
  simp [readAt, hlt, readWindowReg, h]

theorem writeAt_whole (g : Reg) (v : Word) (s : State) :
    writeAt g.offset 8 v s = writeReg g (BitVec.allOnes 64) v s := by
  simp [writeAt, writeWindowReg, accessEnable, accessShift, g.offset_lt]

theorem writeAt_lower (g : Reg) (v : Word) (s : State) :
    writeAt g.offset 4 v s = writeReg g 0xFFFFFFFF v s := by
  simp [writeAt, writeWindowReg, accessEnable, accessShift, g.offset_lt]

theorem writeAt_upper (g : Reg) (v : Word) (s : State) :
    writeAt (g.offset + 4) 4 v s = writeReg g 0xFFFFFFFF00000000 (v <<< 32) s := by
  have hlt : g.offset + 4 < 0x100 := Nat.lt_of_le_of_lt (Nat.add_le_add_right g.offset_le 4) (by decide)
  have hm : (g.offset + 4) % 8 = 4 := by have := g.offset_mod; omega
  simp [writeAt, writeWindowReg, accessEnable, accessShift, hlt, hm]

theorem step_write_whole {s : State} {g : Reg} {v : Word} (h : WriteNext s g.offset 8 v) :
    step s = .next { writeReg g (BitVec.allOnes 64) v (popped s) with resp := .done } := by
  have hle := g.offset_le
  rw [step_write h (by omega) (by cases g <;> rfl), writeAt_whole]

theorem step_write_lower {s : State} {g : Reg} {v : Word} (h : WriteNext s g.offset 4 v) :
    step s = .next { writeReg g 0xFFFFFFFF v (popped s) with resp := .done } := by
  have hle := g.offset_le
  rw [step_write h (by omega) (by cases g <;> rfl), writeAt_lower]

theorem step_write_upper {s : State} {g : Reg} {v : Word} (h : WriteNext s (g.offset + 4) 4 v) :
    step s = .next { writeReg g 0xFFFFFFFF00000000 (v <<< 32) (popped s) with resp := .done } := by
  have hle := g.offset_le
  rw [step_write h (by omega) (by cases g <;> rfl), writeAt_upper]

theorem readAt_whole (g : Reg) (s : State) : readAt g.offset 8 s = readReg g s := by
  rw [readAt_eight _ _ g.offset_mod g.offset_lt, regAt_offset]

theorem step_read_whole {s : State} {g : Reg} (h : ReadNext s g.offset 8) :
    step s = .next { popped s with resp := .data (readReg g s) } := by
  have hle := g.offset_le
  rw [step_read h (by omega) (by cases g <;> rfl), readAt_popped, readAt_whole]

/-! ### What a register write does -/

/-- STATUS: a 1 written to an enabled bit 1 clears OVERRUN (R24). -/
theorem writeReg_status (en v : Word) (s : State) :
    writeReg .status en v s = { s with overrun := s.overrun && !(en.getLsbD 1 && v.getLsbD 1) } := by
  simp only [writeReg]
  cases en.getLsbD 1 && v.getLsbD 1 <;> simp

/-- RESULT, HWCFG and, where bit 1 is written 0, STATUS ignore a write (R44). -/
theorem writeReg_readOnly {g : Reg} {en v : Word} {s : State}
    (h : g = .result ∨ g = .hwcfg ∨ g = .status ∧ v.getLsbD 1 = false) : writeReg g en v s = s := by
  rcases h with rfl | rfl | ⟨rfl, hv⟩
  · rfl
  · rfl
  · simp only [writeReg_status, hv, Bool.and_false, Bool.not_false, Bool.and_true]

/-- A CMD write that covers the lower half presents its word (R29). -/
theorem writeReg_cmd {en : Word} (he : en.getLsbD 0 = true) (v : Word) (s : State) :
    writeReg .cmd en v s = writeCmd (v.setWidth 32) s := by
  simp [writeReg, he]

/-- Every register but STATUS and CMD keeps what it takes in the argument registers. -/
theorem writeReg_args {g : Reg} (hs : g ≠ .status) (hc : g ≠ .cmd) (en v : Word) (s : State) :
    writeReg g en v s = { s with args := (writeReg g en v s).args } := by
  cases g with
  | status => exact absurd rfl hs
  | cmd => exact absurd rfl hc
  | result | regIn | argCfg | argPoly | argInit | argXorout | argCheck | dataAddr | dataLen | nameLen | slotMask
  | hwcfg => rfl

/-- A legal HOST write by what it is of: the argument registers or the buffers, STATUS, CMD (R24, R29, R61). -/
theorem writeAt_cases {off size : Nat} (v : Word) (s : State) (hl : accessLegal off size = true) :
    (∃ a m r, writeAt off size v s = { s with args := a, mem := m, raced := r }) ∨
    (off = 0x00 ∧ (size = 4 ∨ size = 8) ∧ writeAt off size v s = { s with overrun := s.overrun && !v.getLsbD 1 }) ∨
    (off = 0x08 ∧ (size = 4 ∨ size = 8) ∧ writeAt off size v s = writeCmd (v.setWidth 32) s) := by
  by_cases hlt : off < 0x100
  · rcases register_access_cases hl hlt with hn | ⟨g, hg⟩
    · exact .inl ⟨s.args, s.mem, s.raced, writeAt_reserved hlt hn⟩
    · by_cases hs : g = .status
      · subst hs
        rcases hg with ⟨rfl, rfl⟩ | ⟨rfl, rfl⟩ | ⟨rfl, rfl⟩
        · exact .inr (.inl ⟨rfl, .inr rfl, by rw [writeAt_whole, writeReg_status]; simp⟩)
        · exact .inr (.inl ⟨rfl, .inl rfl, by rw [writeAt_lower, writeReg_status]; simp⟩)
        · exact .inl ⟨s.args, s.mem, s.raced, by rw [writeAt_upper, writeReg_status]; simp⟩
      · by_cases hc : g = .cmd
        · subst hc
          rcases hg with ⟨rfl, rfl⟩ | ⟨rfl, rfl⟩ | ⟨rfl, rfl⟩
          · exact .inr (.inr ⟨rfl, .inr rfl, by rw [writeAt_whole, writeReg_cmd (by simp)]⟩)
          · exact .inr (.inr ⟨rfl, .inl rfl, by rw [writeAt_lower, writeReg_cmd (by simp)]⟩)
          · exact .inl ⟨s.args, s.mem, s.raced, by rw [writeAt_upper]; simp [writeReg]⟩
        · have h := fun en w => writeReg_args hs hc en w s
          rcases hg with ⟨rfl, rfl⟩ | ⟨rfl, rfl⟩ | ⟨rfl, rfl⟩
          · exact .inl ⟨_, s.mem, s.raced, by rw [writeAt_whole]; exact h _ _⟩
          · exact .inl ⟨_, s.mem, s.raced, by rw [writeAt_lower]; exact h _ _⟩
          · exact .inl ⟨_, s.mem, s.raced, by rw [writeAt_upper]; exact h _ _⟩
  · obtain ⟨m, r, e, -⟩ := writeBytes_effect size off v s
    exact .inl ⟨s.args, m, r, by simp [writeAt, hlt, e]⟩

/-! ### The command port -/

theorem writeCmd_of_idle {s : State} (c : Cmd) (h : s.busy = false) : writeCmd c s = accept c s := by
  simp [writeCmd, h]

theorem writeCmd_of_busy {s : State} (c : Cmd) (h : s.busy = true) : writeCmd c s = { s with overrun := true } := by
  simp [writeCmd, h]

@[simp] theorem writeCmd_busy (c : Cmd) (s : State) : (writeCmd c s).busy = true := by
  cases h : s.busy <;> simp [writeCmd, h]

@[simp] theorem writeCmd_err (c : Cmd) (s : State) : (writeCmd c s).err = s.err := by
  cases h : s.busy <;> simp [writeCmd, h]

@[simp] theorem writeCmd_result (c : Cmd) (s : State) : (writeCmd c s).result = s.result := by
  cases h : s.busy <;> simp [writeCmd, h]

@[simp] theorem writeCmd_overrun (c : Cmd) (s : State) : (writeCmd c s).overrun = (s.overrun || s.busy) := by
  cases h : s.busy <;> simp [writeCmd, h]

/-- REGSTATE after an acceptance, in one line (R208). -/
theorem registryAtAcceptance_eq (c : Cmd) (r : Registry) :
    registryAtAcceptance c r =
      if r = .uninitialized ∧ (c = 0x00000006 ∨ c = 0x0000000B) then .building else r := by
  cases r with
  | uninitialized => simp [registryAtAcceptance, triggersBuild]
  | building | ready => simp [registryAtAcceptance]

/-! ### A step by its event -/

theorem step_of_cmdWrite {s : State} {c : Cmd} (h : CmdWriteNext s c) :
    step s = .next { writeCmd c (popped s) with resp := .done } := by
  obtain ⟨size, v, rfl | rfl, hw, rfl⟩ := h
  · rw [step_write_lower (g := .cmd) hw, writeReg_cmd (by simp)]
  · rw [step_write_whole (g := .cmd) hw, writeReg_cmd (by simp)]

theorem step_of_statusWrite {s : State} {size : Nat} {v : Word} (hs : size = 4 ∨ size = 8)
    (h : WriteNext s 0x00 size v) :
    step s = .next { popped s with overrun := s.overrun && !v.getLsbD 1, resp := .done } := by
  rcases hs with rfl | rfl
  · rw [step_write_lower (g := .status) h, writeReg_status]
    simp
  · rw [step_write_whole (g := .status) h, writeReg_status]
    simp

theorem step_of_resetNext {s : State} (h : ResetNext s) : step s = .next (assertReset (popped s)) :=
  step_of_head s _ h

theorem step_of_engineTurn {s : State} (h : EngineNext s) : step s = engineTurn (popped s) :=
  step_of_engineNext s ((engineNext_iff s).2 h)

theorem step_of_pending {s : State} (h : EngineNext s) (hb : s.busy = true) : step s = complete (popped s) := by
  simp [step_of_engineTurn h, engineTurn, hb]

/-- A legal pending word completes as its command does (R96). -/
theorem complete_of_decode {s : State} {i : Instr} (h : decode s.pend.cmd = .ok i) : complete s = exec i s := by
  simp [complete, h]

/-- A decoded bus address is the base plus its offset (R61). -/
theorem addr_of_windowOffset {hw : HwConfig} {addr off : Nat} (h : windowOffset hw addr = some off) :
    addr = hw.base + off := by
  unfold windowOffset at h
  split at h
  · cases h
    omega
  · cases h

/-- A step that gives a next state, by the event it took: what an access can do to everything outside the argument
registers and the buffers depends on whether it wrote STATUS, CMD or neither. -/
inductive StepCase (s : State) : State → Prop
  | reset (h : ResetNext s) : StepCase s (assertReset (popped s))
  | access (a : ArgRegs) (m : List Host.Cell) (r : List Nat) (answer : BusResponse) :
      StepCase s { popped s with args := a, mem := m, raced := r, resp := answer }
  | statusWrite (size : Nat) (v : Word) (hs : size = 4 ∨ size = 8) (h : WriteNext s 0x00 size v) :
      StepCase s { popped s with overrun := s.overrun && !v.getLsbD 1, resp := .done }
  | cmdWrite (c : Cmd) (h : CmdWriteNext s c) : StepCase s { writeCmd c (popped s) with resp := .done }
  | idle (h : EngineNext s) (hb : s.busy = false) : StepCase s (popped s)
  | completed (h : EngineNext s) (hb : s.busy = true) (t : State) (ht : complete (popped s) = .next t) : StepCase s t

theorem step_cases {s t : State} (h : step s = .next t) : StepCase s t := by
  cases step_effect h with
  | reset rest hi => exact .reset (by simp [ResetNext, hi])
  | answered answer => exact .access s.args s.mem s.raced answer
  | idle he hb => exact .idle ((engineNext_iff s).1 he) hb
  | completed he hb t ht => exact .completed ((engineNext_iff s).1 he) hb t ht
  | written addr size v off rest hi ho hl t ht =>
    subst ht
    have hw : WriteNext s off size v := by simp [WriteNext, hi, addr_of_windowOffset ho]
    rcases writeAt_cases v (popped s) hl with ⟨a, m, r, e⟩ | ⟨rfl, hs, e⟩ | ⟨rfl, hs, e⟩
    · rw [e]
      exact .access a m r .done
    · rw [e]
      exact .statusWrite size v hs hw
    · rw [e]
      exact .cmdWrite _ ⟨size, v, hs, hw, rfl⟩

/-! ### Argument registers -/

/-- The writable bits of an argument register (R31, R32, R34, R35); `none` for the other registers. -/
def Reg.argMask : Reg → Option Word
  | .regIn | .argPoly | .argInit | .argXorout | .argCheck | .slotMask => some 0xFFFFFFFFFFFFFFFF
  | .argCfg => some 0x7FF
  | .dataAddr | .dataLen => some 0xFFFFFFFF
  | .nameLen => some 0xFF
  | .status | .cmd | .result | .hwcfg => none

/-- The argument registers by name. -/
theorem argumentRegisters_reg {r : Nat × Word} (h : r ∈ argumentRegisters) :
    ∃ g : Reg, r.1 = g.offset ∧ g.argMask = some r.2 := by
  simp only [argumentRegisters, List.mem_cons, List.not_mem_nil, or_false] at h
  rcases h with rfl | rfl | rfl | rfl | rfl | rfl | rfl | rfl | rfl | rfl
  · exact ⟨.regIn, rfl, rfl⟩
  · exact ⟨.argCfg, rfl, rfl⟩
  · exact ⟨.argPoly, rfl, rfl⟩
  · exact ⟨.argInit, rfl, rfl⟩
  · exact ⟨.argXorout, rfl, rfl⟩
  · exact ⟨.argCheck, rfl, rfl⟩
  · exact ⟨.dataAddr, rfl, rfl⟩
  · exact ⟨.dataLen, rfl, rfl⟩
  · exact ⟨.nameLen, rfl, rfl⟩
  · exact ⟨.slotMask, rfl, rfl⟩

/-- Storing the low n bits of a word and reading them back masks it. -/
theorem setWidth_setWidth_eq_and (n : Nat) (v : Word) :
    (v.setWidth n).setWidth 64 = v &&& (BitVec.allOnes n).setWidth 64 := by
  ext i hi
  simp [hi, Bool.and_comm]

/-- An argument register reads, after a write, the merged value in its writable bits (R31, R32, R34, R35, R43). -/
theorem readReg_writeReg_same {g : Reg} {m : Word} (hg : g.argMask = some m) (en v : Word) (s : State) :
    readReg g (writeReg g en v s) = mergeBits (readReg g s) en v &&& m := by
  cases g with
  | status | cmd | result | hwcfg => cases hg
  | regIn | argPoly | argInit | argXorout | argCheck | slotMask =>
    cases hg
    exact (BitVec.and_allOnes).symm
  | argCfg | dataAddr | dataLen | nameLen =>
    cases hg
    exact setWidth_setWidth_eq_and _ _

/-- A write of an argument register changes no other register (R23). -/
theorem readReg_writeReg_other {g g' : Reg} {m : Word} (hg : g.argMask = some m) (hne : g' ≠ g) (en v : Word)
    (s : State) : readReg g' (writeReg g en v s) = readReg g' s := by
  cases g with
  | status | cmd | result | hwcfg => cases hg
  | regIn | argPoly | argInit | argXorout | argCheck | slotMask | argCfg | dataAddr | dataLen | nameLen =>
    cases g' <;> simp_all [writeReg, readReg, statusWord]

/-- Every whole-register read of the window but one stays, when every register but that one does (R43). -/
theorem readAt_whole_congr {g : Reg} {s t : State} (h : ∀ g', g' ≠ g → readReg g' t = readReg g' s) {off : Nat}
    (hm : off % 8 = 0) (hlt : off < 0x100) (hne : off ≠ g.offset) : readAt off 8 t = readAt off 8 s := by
  rw [readAt_eight off t hm hlt, readAt_eight off s hm hlt]
  cases e : regAt off with
  | none => rfl
  | some g' => exact h g' fun hg => hne (hg ▸ (regAt_eq_some off g').1 e)

/-- The answer to the HOST is in no register. -/
@[simp] theorem readReg_setResp (g : Reg) (s : State) (answer : BusResponse) :
    readReg g { s with resp := answer } = readReg g s := rfl

@[simp] theorem readReg_popped (g : Reg) (s : State) : readReg g (popped s) = readReg g s := rfl

/-- A write with every bit enabled leaves nothing of the old value. -/
@[simp] theorem mergeBits_allOnes (old v : Word) : mergeBits old (BitVec.allOnes 64) v = v := by
  simp only [mergeBits, BitVec.not_allOnes, BitVec.and_zero, BitVec.zero_or, BitVec.and_allOnes]

/-! ### The fields of STATUS and HWCFG -/

/-- The bits of STATUS (R24). -/
theorem statusWord_fields (s : State) :
    (statusWord s).getLsbD 0 = s.busy ∧ (statusWord s).getLsbD 1 = s.overrun ∧
      (statusWord s).extractLsb' 2 2 = regstate s.registry ∧ (statusWord s).extractLsb' 4 4 = 0 ∧
      (statusWord s).extractLsb' 8 4 = codeNumber s.err ∧ (statusWord s).extractLsb' 12 52 = 0 := by
  unfold statusWord
  generalize s.busy = b, s.overrun = o, regstate s.registry = r, codeNumber s.err = e
  revert b o r e
  decide

theorem statusWord_resetOf (hw : HwConfig) : statusWord (State.resetOf hw) = 0 := by
  simp [statusWord, State.resetOf, regstate, codeNumber]

/-- HWCFG's fields (R33), each cut to its size. -/
theorem hwcfgWord_fields (hw : HwConfig) :
    (hwcfgWord hw).extractLsb' 0 8 = BitVec.ofNat 8 hw.nUser ∧
      (hwcfgWord hw).extractLsb' 8 8 = BitVec.ofNat 8 hw.catalog.length ∧
      (hwcfgWord hw).extractLsb' 16 8 = BitVec.ofNat 8 hw.nameMax ∧ (hwcfgWord hw).extractLsb' 24 8 = 0 ∧
      (hwcfgWord hw).extractLsb' 32 32 = BitVec.ofNat 32 hw.dbufSize := by
  unfold hwcfgWord
  generalize BitVec.ofNat 8 hw.nUser = user, BitVec.ofNat 8 hw.catalog.length = cat,
    BitVec.ofNat 8 hw.nameMax = name, BitVec.ofNat 32 hw.dbufSize = dbuf
  refine ⟨?_, ?_, ?_, ?_, ?_⟩ <;>
  · apply BitVec.eq_of_getLsbD_eq
    intro i hi
    simp only [BitVec.getLsbD_extractLsb', BitVec.getLsbD_or, BitVec.getLsbD_shiftLeft, BitVec.getLsbD_setWidth]
    grind

/-- The ranges of R9 that make every parameter fit its field of HWCFG. -/
theorem conforming_fits {hw : HwConfig} (h : hw.conforming = true) :
    hw.nUser < 2 ^ 8 ∧ hw.catalog.length < 2 ^ 8 ∧ hw.nameMax < 2 ^ 8 ∧ hw.dbufSize < 2 ^ 32 := by
  simp only [HwConfig.conforming, HwConfig.rangesOk, Bool.and_eq_true, decide_eq_true_eq] at h
  omega

/-! ### Reserved bytes above the registers -/

theorem writeBytes_of_not_inBuffer (n off : Nat) (v : Word) (s : State)
    (h : ∀ j, j < n → inBuffer s.hw (off + j) = false) : writeBytes n off v s = s := by
  induction n generalizing off v with
  | zero => rfl
  | succ n ih =>
    have h0 : inBuffer s.hw off = false := h 0 (Nat.succ_pos n)
    simp only [writeBytes, writeBufferArea, h0, Bool.false_eq_true, if_false]
    exact ih _ _ fun j hj => by
      rw [Nat.add_assoc, Nat.add_comm 1 j]
      exact h (j + 1) (Nat.succ_lt_succ hj)

theorem ofBytes_eq_zero {bs : List Byte} (h : ∀ b ∈ bs, b = 0) : ofBytes bs = 0 := by
  induction bs with
  | nil => rfl
  | cons b bs ih =>
    rw [ofBytes, h b List.mem_cons_self, ih fun b' hb => h b' (List.mem_cons_of_mem b hb)]
    rfl

/-- An offset R43 or R61 reserves: CMD's upper half, above the registers, and above NBUF. -/
def ReservedAccess (hw : HwConfig) (off size : Nat) : Prop :=
  (off = 0x0C ∧ size = 4) ∨ (0x70 ≤ off ∧ off ≤ 0xFF) ∨ (0x100 + hw.nameMax ≤ off ∧ off ≤ 0xFFF)

/-- A legal access that begins above NBUF ends below DBUF (R65). -/
theorem not_inBuffer_of_above_nbuf {hw : HwConfig} {off size : Nat} (hl : accessLegal off size = true)
    (h : 0x100 + hw.nameMax ≤ off ∧ off ≤ 0xFFF) (j : Nat) (hj : j < size) : inBuffer hw (off + j) = false := by
  have hnot : ¬ off < 0x100 := by omega
  simp only [accessLegal, hnot, if_false, Bool.and_eq_true, Bool.or_eq_true, beq_iff_eq] at hl
  have hend : off + size ≤ 0x1000 := by
    obtain ⟨((rfl | rfl) | rfl) | rfl, ha⟩ := hl <;> omega
  simp only [inBuffer, Bool.or_eq_false_iff, Bool.and_eq_false_iff, decide_eq_false_iff_not]
  omega

/-- A reserved offset ignores a write (R43). -/
theorem writeAt_reservedAccess {off size : Nat} {s : State} (hl : accessLegal off size = true)
    (h : ReservedAccess s.hw off size) (v : Word) : writeAt off size v s = s := by
  rcases h with ⟨rfl, rfl⟩ | h | h
  · exact (writeAt_upper .cmd v s).trans (by simp [writeReg])
  · exact writeAt_reserved (by omega) (regAt_of_gt (by omega))
  · rw [writeAt, if_neg (by omega), writeBytes_of_not_inBuffer _ _ _ _ (not_inBuffer_of_above_nbuf hl h)]

/-- A reserved offset reads 0 (R43). -/
theorem readAt_reservedAccess {off size : Nat} {s : State} (hl : accessLegal off size = true)
    (h : ReservedAccess s.hw off size) : readAt off size s = 0 := by
  rcases h with ⟨rfl, rfl⟩ | h | h
  · simp [readAt, readWindowReg, regAt, readReg]
  · exact readAt_reserved (by omega) (regAt_of_gt (by omega))
  · rw [readAt, if_neg (by omega)]
    refine ofBytes_eq_zero fun b hb => ?_
    obtain ⟨j, hj, rfl⟩ := List.mem_map.1 hb
    simp [readBufferArea, not_inBuffer_of_above_nbuf hl h j (List.mem_range.1 hj)]

/-! ### OVERRUN and RESULT at a completion -/

/-- No completion changes OVERRUN (R26). -/
theorem complete_overrun {s t : State} (ht : complete s = .next t) : t.overrun = s.overrun := by
  obtain ⟨-, h, -⟩ := complete_fields ht
  exact h

/-- A command that changes RESULT ends with OK or CHECK_MISMATCH (R30). -/
theorem Completion.err_of_result_ne {i : Instr} {s t : State} (hc : Completion i s (.next t))
    (h : t.result ≠ s.result) : t.err = .ok ∨ t.err = .checkMismatch := by
  cases hc with
  | illegal | error => exact absurd (by simp) h
  | result v c hok => exact hok
  | filled | freed | done => exact .inl rfl

theorem complete_err_of_result_ne {s t : State} (ht : complete s = .next t) (h : t.result ≠ s.result) :
    t.err = .ok ∨ t.err = .checkMismatch := by
  rcases complete_cases s with ⟨e, -, hr⟩ | ⟨i, -, -, hc⟩
  · cases hr.symm.trans ht
    exact absurd rfl h
  · exact (ht ▸ hc).err_of_result_ne h

end Sys2Proof.Machine

/-! ## What a command depends on -/

namespace Sys2Proof.Machine

open Sys2Proof

/-- `s` with what the HOST may write under a pending command replaced: the argument registers, the buffers and the list
of bytes written since the acceptance (R266, R269). -/
def withHostSide (a : ArgRegs) (m : List Host.Cell) (r : List Nat) (s : State) : State :=
  { s with args := a, mem := m, raced := r }

/-- An outcome with its next state changed. -/
def mapNext (f : State → State) : Outcome → Outcome
  | .next s => .next (f s)
  | .fault e => .fault e
  | .refused e => .refused e

section

variable (a : ArgRegs) (m : List Host.Cell) (r : List Nat)

@[simp] theorem withHostSide_hw (s : State) : (withHostSide a m r s).hw = s.hw := rfl

@[simp] theorem withHostSide_pend (s : State) : (withHostSide a m r s).pend = s.pend := rfl

@[simp] theorem slotAt_withHostSide (s : State) (k : BitVec 6) : slotAt (withHostSide a m r s) k = slotAt s k := rfl

theorem buildIfDue_withHostSide (s : State) :
    buildIfDue (withHostSide a m r s) = withHostSide a m r (buildIfDue s) := by
  simp only [buildIfDue_eq, withHostSide]

theorem namedModel_withHostSide (h : BitVec 8) (s : State) : namedModel h (withHostSide a m r s) = namedModel h s := rfl

/-- A command on a model depends on what its rule depends on. -/
theorem withModel_withHostSide {h : BitVec 8} {s : State} {body : Model → State → Outcome}
    (hb : ∀ md, body md (withHostSide a m r (buildIfDue s)) = mapNext (withHostSide a m r) (body md (buildIfDue s))) :
    withModel h (withHostSide a m r s) body = mapNext (withHostSide a m r) (withModel h s body) := by
  unfold withModel
  rw [buildIfDue_withHostSide, namedModel_withHostSide]
  cases namedModel h (buildIfDue s) with
  | error c => rfl
  | ok md => exact hb md

theorem checkModel_withHostSide (md : Model) (s : State) :
    checkModel md (withHostSide a m r s) = mapNext (withHostSide a m r) (checkModel md s) := by
  unfold checkModel
  cases selfCheck md with
  | none => rfl
  | some c =>
    dsimp only
    split <;> rfl

/-- UPDATE reads of the HOST's side its bytes alone (R171). -/
theorem updateModel_withHostSide {s : State} (hd : dataOperand (withHostSide a m r s) = dataOperand s) (md : Model) :
    updateModel md (withHostSide a m r s) = mapNext (withHostSide a m r) (updateModel md s) := by
  simp only [updateModel, hd, withHostSide_hw, withHostSide_pend]
  split
  · rfl
  · split <;> rfl

/-- A lookup reads of the HOST's side its query name alone (R212, R215). -/
theorem lookupBy_withHostSide {s : State} (hn : nameOperand (withHostSide a m r s) = nameOperand s)
    (search : List Byte → Option Nat) :
    lookupBy search (withHostSide a m r s) = mapNext (withHostSide a m r) (lookupBy search s) := by
  simp only [lookupBy, hn, withHostSide_hw, withHostSide_pend]
  split
  · rfl
  · cases search (nameOperand s) <;> rfl

theorem commitModel_withHostSide (k : BitVec 6) (md : Model) (s : State) :
    commitModel k md (withHostSide a m r s) = mapNext (withHostSide a m r) (commitModel k md s) := by
  rw [commitModel, commitModel, withHostSide_pend]
  split
  · cases selfCheck md with
    | none => rfl
    | some c =>
      dsimp only
      split <;> rfl
  · rfl

/-- CFG reads of the HOST's side its name alone: every other parameter is latched (R36, R130). -/
theorem configureSlot_withHostSide {s : State} (hn : nameOperand (withHostSide a m r s) = nameOperand s)
    (k : BitVec 6) :
    configureSlot k (withHostSide a m r s) = mapNext (withHostSide a m r) (configureSlot k s) := by
  simp only [configureSlot, cfgParams, hn, withHostSide_hw, withHostSide_pend, commitModel_withHostSide]
  split
  · rfl
  · cases cfgWidth s.pend.args <;> rfl

/-- The query name depends on the bytes it is read from. -/
theorem nameOperand_withHostSide {s : State}
    (h : ∀ off, 0x100 ≤ off ∧ off < 0x100 + s.pend.args.nameLen.toNat →
      commandByte (withHostSide a m r s) off = commandByte s off) :
    nameOperand (withHostSide a m r s) = nameOperand s :=
  List.map_congr_left fun j hj => h _ ⟨Nat.le_add_right _ j, Nat.add_lt_add_left (List.mem_range.1 hj) _⟩

/-- UPDATE's bytes depend on the bytes they are read from. -/
theorem dataOperand_withHostSide {s : State}
    (h : ∀ off, 0x1000 + s.pend.args.dataAddr.toNat ≤ off ∧
        off < 0x1000 + s.pend.args.dataAddr.toNat + s.pend.args.dataLen.toNat →
      commandByte (withHostSide a m r s) off = commandByte s off) :
    dataOperand (withHostSide a m r s) = dataOperand s :=
  List.map_congr_left fun j hj => h _ <| by
    have hlt : j < s.pend.args.dataLen.toNat := List.mem_range.1 hj
    simp only [dbufOffset, withHostSide_pend]
    omega

/-- A command depends on the HOST's side through the buffer bytes it reads alone, and leaves that side as it is (R266,
R269). -/
theorem exec_withHostSide {i : Instr} {s : State}
    (h : ∀ off, ReadsByte i s off → commandByte (withHostSide a m r s) off = commandByte s off) :
    exec i (withHostSide a m r s) = mapNext (withHostSide a m r) (exec i s) := by
  have hb : ∀ off, ReadsByte i s off →
      commandByte (withHostSide a m r (buildIfDue s)) off = commandByte (buildIfDue s) off := fun off ho => by
    rw [← buildIfDue_withHostSide, commandByte_buildIfDue, commandByte_buildIfDue, h off ho]
  cases i with
  | cfg hd =>
    have hn := nameOperand_withHostSide a m r (s := buildIfDue s) (by simpa [ReadsByte] using hb)
    simp only [exec, execCfg, buildIfDue_withHostSide, withHostSide_hw, slotAt_withHostSide,
      configureSlot_withHostSide a m r hn]
    cases userSlot s.hw hd with
    | error c => rfl
    | ok k =>
      dsimp only
      cases slotAt s k <;> rfl
  | release hd =>
    simp only [exec, execRelease, buildIfDue_withHostSide, withHostSide_hw, slotAt_withHostSide]
    cases userSlot s.hw hd with
    | error c => rfl
    | ok k =>
      dsimp only
      cases slotAt s k <;> rfl
  | update hd =>
    have hd := dataOperand_withHostSide a m r (s := buildIfDue s) (by simpa [ReadsByte] using hb)
    exact withModel_withHostSide a m r (updateModel_withHostSide a m r hd)
  | lookupPre | lookupList =>
    have hn := nameOperand_withHostSide a m r (s := buildIfDue s) (by simpa [ReadsByte] using hb)
    simp only [exec, execLookupPre, execLookupList, buildIfDue_withHostSide]
    exact lookupBy_withHostSide a m r hn _
  | check hd => exact withModel_withHostSide a m r fun md => checkModel_withHostSide a m r md _
  | init | final | tblrd =>
    simp only [exec, execInit, execFinal, execTblrd]
    exact withModel_withHostSide a m r fun _ => rfl
  | paramrd hd sel =>
    simp only [exec, execParamrd]
    split
    · exact withModel_withHostSide a m r fun _ => rfl
    · rfl
  | build =>
    simp only [exec, execBuild, buildIfDue_withHostSide]
    rfl

end

end Sys2Proof.Machine

section

open Sys2Proof Sys2Proof.Machine

/-- Settles O5: a placed word is a pending one on the ENGINE's turn, and its event popped is the acceptance. -/
theorem stepRunsTheDecodedCommand : Obligations.StepRunsTheDecodedCommand := by
  refine ⟨fun s i hb he hd => ?_, fun s w i hw hd => ?_⟩
  · rw [step_of_pending he hb, complete_of_decode (by simpa using hd)]
  · rw [State.withFetchWord, Nat.mod_eq_of_lt hw, step_of_pending (.inr rfl) rfl,
      complete_of_decode (by simpa using hd)]
    rfl

/-- Settles O6: with BUSY = 0 the command port accepts the word. -/
theorem cmdWriteIsAccepted : Obligations.CmdWriteIsAccepted := by
  intro s c hc hb
  have hstep := step_of_cmdWrite hc
  rw [writeCmd_of_idle c (by simpa using hb)] at hstep
  exact ⟨_, hstep, rfl, rfl, rfl, registryAtAcceptance_eq c s.registry, rfl, rfl, rfl, rfl, rfl, rfl, fun _ => rfl, rfl,
    rfl⟩

/-- Settles O7: what sets and clears BUSY by the step's event, that nothing else does by the cases of a step. -/
theorem busyMarksThePendingCommand : Obligations.BusyMarksThePendingCommand := by
  intro s t h
  refine ⟨fun hb c hc => ?_, fun hb he => ?_, fun hr => ?_, fun hb ht => ?_, fun hb ht => ?_, fun hb ht => ?_⟩
  · rw [step_of_cmdWrite hc, writeCmd_of_idle c (by simpa using hb)] at h
    cases h
    exact ⟨rfl, rfl⟩
  · exact complete_busy (step_of_pending he hb ▸ h)
  · cases (step_of_resetNext hr).symm.trans h
    rfl
  · cases step_cases h with
    | cmdWrite c hc => exact ⟨c, hc⟩
    | reset => cases ht
    | access | statusWrite | idle => simp [hb] at ht
    | completed _ hb' => simp [hb] at hb'
  · cases step_cases h with
    | reset hr => exact .inr hr
    | completed he => exact .inl he
    | access | statusWrite | cmdWrite | idle => simp [hb] at ht
  · cases step_cases h with
    | reset => cases ht
    | completed _ _ _ hc => simp [complete_busy hc] at ht
    | cmdWrite c => simp [writeCmd_of_busy (s := popped s) c hb]
    | access | statusWrite | idle => rfl

/-- Settles O8: by the step's event, and the cases of a step for what changes OVERRUN. -/
theorem overrunStaysUntilCleared : Obligations.OverrunStaysUntilCleared := by
  intro s t h
  refine ⟨fun hb ⟨c, hc⟩ => ?_, fun ho ht => ?_, fun ho ht => ?_, fun ⟨size, v, hs, hw, hv⟩ => ?_, fun he => ?_⟩
  · cases (step_of_cmdWrite hc).symm.trans h
    simp [hb]
  · cases step_cases h with
    | cmdWrite c hc => exact ⟨by simpa [ho] using ht, c, hc⟩
    | reset => cases ht
    | access | statusWrite | idle => simp [ho] at ht
    | completed _ _ _ hc => simp [complete_overrun hc, ho] at ht
  · cases step_cases h with
    | reset hr => exact .inl hr
    | statusWrite size v hs hw => exact .inr ⟨size, v, hs, hw, by simpa [ho] using ht⟩
    | access | cmdWrite | idle => simp [ho] at ht
    | completed _ _ _ hc => simp [complete_overrun hc, ho] at ht
  · cases (step_of_statusWrite hs hw).symm.trans h
    simp [hv]
  · cases hb : s.busy with
    | true =>
      rw [step_of_pending he hb] at h
      exact (complete_overrun h).trans (popped_overrun s)
    | false =>
      rw [step_of_engineTurn he, engineTurn, if_neg (by simp [hb])] at h
      cases h
      rfl

/-- Settles O10: the bits of `statusWord`, and STATUS's write rule on each of its accesses. -/
theorem statusReadsItsFields : Obligations.StatusReadsItsFields := by
  refine ⟨fun s hr => ?_, fun s size v hs hw => step_of_statusWrite hs hw, fun s v hw => ?_, statusWord_resetOf⟩
  · obtain ⟨busy, overrun, registry, low, code, high⟩ := statusWord_fields s
    refine ⟨statusWord s, step_read_whole (g := .status) hr, busy, overrun, registry, fun h => ?_, fun h => ?_,
      fun tables h => ?_, low, ?_, high⟩
    · rw [registry, h]; rfl
    · rw [registry, h]; rfl
    · rw [registry, h]; rfl
    · rw [code]
      cases s.err <;> decide
  · rw [step_write_upper (g := .status) hw, writeReg_readOnly (.inr (.inr ⟨rfl, by simp⟩))]

/-- Settles O11: no event but RESET and a completion writes ERR. -/
theorem errChangesOnlyAtCompletion : Obligations.ErrChangesOnlyAtCompletion := by
  intro s t h
  refine ⟨fun hne => ?_, fun hr => ?_⟩
  · cases step_cases h with
    | reset hr => exact .inl hr
    | completed he hb => exact .inr ⟨hb, he⟩
    | access | statusWrite | cmdWrite | idle => simp at hne
  · cases (step_of_resetNext hr).symm.trans h
    rfl

/-- Settles O12: no event but RESET and a completion writes RESULT, and of the completions only those that end with OK
or CHECK_MISMATCH. -/
theorem resultChangesOnlyAtCompletion : Obligations.ResultChangesOnlyAtCompletion := by
  intro s t h
  refine ⟨fun hne => ?_, fun hr => ?_⟩
  · cases step_cases h with
    | reset hr => exact .inl hr
    | completed he hb _ hc => exact .inr ⟨hb, he, complete_err_of_result_ne hc hne⟩
    | access | statusWrite | cmdWrite | idle => simp at hne
  · cases (step_of_resetNext hr).symm.trans h
    rfl

/-- Settles O13: an 8-byte write is a register write with every bit enabled, and an argument register reads it back
masked. -/
theorem argumentRegistersReadBack : Obligations.ArgumentRegistersReadBack := by
  intro s r v hr hw
  obtain ⟨g, hoff, hmask⟩ := argumentRegisters_reg hr
  rw [hoff] at hw ⊢
  have hframe := writeReg_args (g := g) (by rintro rfl; cases hmask) (by rintro rfl; cases hmask)
    (BitVec.allOnes 64) v (popped s)
  refine ⟨_, step_write_whole hw, ?_, fun off hm hlt hne => ?_, ?_⟩
  · rw [readAt_whole, readReg_setResp, readReg_writeReg_same hmask, mergeBits_allOnes]
  · exact readAt_whole_congr (fun g' hg => by rw [readReg_setResp, readReg_writeReg_other hmask hg, readReg_popped]) hm
      hlt hne
  · rw [hframe]

/-- Settles O15: each write is a register write, which a read-only register ignores. -/
theorem readOnlyRegistersIgnoreWrites : Obligations.ReadOnlyRegistersIgnoreWrites := by
  intro s off v h
  obtain ⟨g, rfl, hg⟩ : ∃ g : Reg, off = g.offset ∧ (g = .result ∨ g = .hwcfg ∨ g = .status ∧ v.getLsbD 1 = false) := by
    rcases h with rfl | rfl | ⟨rfl, hv⟩
    · exact ⟨.result, rfl, .inl rfl⟩
    · exact ⟨.hwcfg, rfl, .inr (.inl rfl)⟩
    · exact ⟨.status, rfl, .inr (.inr ⟨rfl, hv⟩)⟩
  have hshift : g = .result ∨ g = .hwcfg ∨ g = .status ∧ (v <<< 32).getLsbD 1 = false :=
    hg.imp_right (Or.imp_right fun hs => ⟨hs.1, by simp⟩)
  refine ⟨fun hw => ?_, fun hw => ?_, fun hw => ?_⟩
  · rw [step_write_whole hw, writeReg_readOnly hg]
  · rw [step_write_lower hw, writeReg_readOnly hg]
  · rw [step_write_upper hw, writeReg_readOnly hshift]

/-- Settles O16: a legal access of a reserved offset touches no register's implemented half and no buffer byte. -/
theorem reservedOffsetsReadZeroIgnoreWrites : Obligations.ReservedOffsetsReadZeroIgnoreWrites := by
  intro s off size v _ hl hres
  have hr : ReservedAccess (popped s).hw off size := hres
  have hin : off < 0x1000 + s.hw.dbufSize := by omega
  refine ⟨fun hw => ?_, fun hw => ?_⟩
  · rw [step_write hw hin hl, writeAt_reservedAccess hl hr]
  · rw [step_read hw hin hl, readAt_reservedAccess hl hr]

/-- Settles O17: HWCFG's fields are found again, and R9's ranges fit them. -/
theorem hwcfgReportsTheInstance : Obligations.HwcfgReportsTheInstance := by
  refine ⟨fun s hc hr => ?_, fun s v hw => ?_⟩
  · obtain ⟨hUser, hCat, hName, hDbuf⟩ := conforming_fits hc
    obtain ⟨user, cat, name, zero, dbuf⟩ := hwcfgWord_fields s.hw
    refine ⟨hwcfgWord s.hw, step_read_whole (g := .hwcfg) hr, ?_, ?_, ?_, zero, ?_⟩
    · rw [user, BitVec.toNat_ofNat, Nat.mod_eq_of_lt hUser]
    · rw [cat, BitVec.toNat_ofNat, Nat.mod_eq_of_lt hCat]
    · rw [name, BitVec.toNat_ofNat, Nat.mod_eq_of_lt hName]
    · rw [dbuf, BitVec.toNat_ofNat, Nat.mod_eq_of_lt hDbuf]
  · rw [step_write_whole (g := .hwcfg) hw, writeReg_readOnly (.inr (.inl rfl))]

/-- Settles O52: the argument registers are of the HOST's side, and no byte a command reads is an argument register. -/
theorem argumentWritesDoNotReachThePendingCommand : Obligations.ArgumentWritesDoNotReachThePendingCommand := by
  intro i s t a h
  have hexec := exec_withHostSide a s.mem s.raced (i := i) (s := s) fun _ _ => rfl
  have hc : Completion i s (.next t) := h ▸ exec_completion i s
  obtain ⟨-, -, -, -, hmem, hraced, -⟩ := hc.fields
  rw [h, mapNext, withHostSide, withHostSide, ← hmem, ← hraced] at hexec
  rw [← hexec, hmem, hraced]

end

/-! ## Accesses of the window -/

namespace Sys2Proof.Machine

open Sys2Proof

/-! ### Sizes, alignment and the regions -/

/-- The accesses R64 and R65 answer with a bus error. -/
theorem accessLegal_eq_false_iff (off size : Nat) :
    accessLegal off size = false ↔
      (off < 0x100 ∧ size ≠ 4 ∧ size ≠ 8) ∨ (size ≠ 1 ∧ size ≠ 2 ∧ size ≠ 4 ∧ size ≠ 8) ∨ off % size ≠ 0 := by
  by_cases hlt : off < 0x100
  · simp only [accessLegal, hlt, if_true, Bool.and_eq_false_iff, Bool.or_eq_false_iff, beq_eq_false_iff_ne, true_and]
    tauto
  · simp only [accessLegal, hlt, if_false, Bool.and_eq_false_iff, Bool.or_eq_false_iff, beq_eq_false_iff_ne, false_and,
      false_or, and_assoc]

theorem access_size_align {off size : Nat} (hl : accessLegal off size = true) :
    (size = 1 ∨ size = 2 ∨ size = 4 ∨ size = 8) ∧ off % size = 0 := by
  have hgood := mt (accessLegal_eq_false_iff off size).2 (by simp [hl])
  tauto

/-- Every legal size divides 8 (R64), so an aligned access never straddles a multiple of 8. -/
theorem access_end_le {off size b : Nat} (hl : accessLegal off size = true) (hb : b % 8 = 0) (hlt : off < b) :
    off + size ≤ b := by
  obtain ⟨rfl | rfl | rfl | rfl, halign⟩ := access_size_align hl <;> omega

theorem access_size_le {off size : Nat} (hl : accessLegal off size = true) : size ≤ 8 := by
  obtain ⟨hsize, -⟩ := access_size_align hl
  omega

/-- R9's parameter ranges make NBUF and DBUF end at multiples of 8, NBUF below DBUF. -/
theorem conforming_buffers {hw : HwConfig} (h : hw.conforming = true) :
    hw.nameMax % 8 = 0 ∧ hw.nameMax ≤ 128 ∧ hw.dbufSize % 8 = 0 := by
  simp only [HwConfig.conforming, HwConfig.rangesOk, Bool.and_eq_true, decide_eq_true_eq, beq_iff_eq] at h
  omega

theorem inBuffer_iff (hw : HwConfig) (off : Nat) :
    inBuffer hw off = true ↔
      (0x100 ≤ off ∧ off < 0x100 + hw.nameMax) ∨ (0x1000 ≤ off ∧ off < 0x1000 + hw.dbufSize) := by
  simp [inBuffer]

/-- A legal access that begins in a buffer lies in it (R65). -/
theorem inBuffer_of_access {hw : HwConfig} {off size : Nat} (hc : hw.conforming = true)
    (hl : accessLegal off size = true) (hin : inBuffer hw off = true) (j : Nat) (hj : j < size) :
    inBuffer hw (off + j) = true := by
  obtain ⟨hname, -, hdbuf⟩ := conforming_buffers hc
  rw [inBuffer_iff] at hin ⊢
  rcases hin with h | h
  · have hend := access_end_le hl (b := 0x100 + hw.nameMax) (by omega) h.2
    omega
  · have hend := access_end_le hl (b := 0x1000 + hw.dbufSize) (by omega) h.2
    omega

/-- The buffers lie above the registers and inside the window (R61). -/
theorem inBuffer_bounds {hw : HwConfig} {off : Nat} (hc : hw.conforming = true) (hin : inBuffer hw off = true) :
    0x100 ≤ off ∧ off < 0x1000 + hw.dbufSize := by
  obtain ⟨-, hname, -⟩ := conforming_buffers hc
  rw [inBuffer_iff] at hin
  omega

/-- A bus address outside the window is not decoded (R61). -/
theorem windowOffset_outside {hw : HwConfig} {addr : Nat}
    (h : addr < hw.base ∨ hw.base + (0x1000 + hw.dbufSize) ≤ addr) : windowOffset hw addr = none := by
  unfold windowOffset windowSize
  exact if_neg (by omega)

/-! ### Halves of a register -/

theorem upperHalf_eq : (0xFFFFFFFF00000000 : Word) = BitVec.allOnes 64 <<< 32 := by decide

/-- What the upper half leaves out is shifted out. -/
theorem shift_upperHalf (v : Word) : (v &&& 0xFFFFFFFF00000000) >>> 32 = v >>> 32 := by
  rw [upperHalf_eq]
  apply BitVec.eq_of_getLsbD_eq
  intro i _
  simp only [BitVec.getLsbD_ushiftRight, BitVec.getLsbD_and, BitVec.getLsbD_shiftLeft, BitVec.getLsbD_allOnes]
  by_cases h : 32 + i < 64
  · have hlow : i < 64 := by omega
    simp [h, hlow]
  · rw [BitVec.getLsbD_of_ge v _ (by omega), Bool.false_and]

/-- A 4-byte read at a register's offset gives its lower half (R66), as of a reserved offset. -/
theorem readAt_lower {off : Nat} (s : State) (hm : off % 8 = 0) (hlt : off < 0x100) :
    readAt off 4 s = readAt off 8 s &&& 0x00000000FFFFFFFF := by
  rw [readAt_eight off s hm hlt, readAt, if_pos hlt, readWindowReg, hm, Nat.sub_zero]
  cases regAt off with
  | none => simp
  | some g => simp [accessEnable, accessShift, hm]

/-- A 4-byte read 4 above a register's offset gives its upper half (R66). -/
theorem readAt_upper {off : Nat} (s : State) (hm : off % 8 = 0) (hlt : off < 0x100) :
    readAt (off + 4) 4 s = readAt off 8 s >>> 32 := by
  have hm' : (off + 4) % 8 = 4 := by omega
  rw [readAt_eight off s hm hlt, readAt, if_pos (by omega), readWindowReg, accessEnable, accessShift, hm',
    Nat.add_sub_cancel]
  cases regAt off with
  | none => simp
  | some g => exact shift_upperHalf (readReg g s)

theorem step_read_lower {s : State} {g : Reg} (h : ReadNext s g.offset 4) :
    step s = .next { popped s with resp := .data (readAt g.offset 8 s &&& 0x00000000FFFFFFFF) } := by
  have hle := g.offset_le
  rw [step_read h (by omega) (by cases g <;> rfl), readAt_popped, readAt_lower s g.offset_mod g.offset_lt]

theorem step_read_upper {s : State} {g : Reg} (h : ReadNext s (g.offset + 4) 4) :
    step s = .next { popped s with resp := .data (readAt g.offset 8 s >>> 32) } := by
  have hle := g.offset_le
  rw [step_read h (by omega) (by cases g <;> rfl), readAt_popped, readAt_upper s g.offset_mod g.offset_lt]

/-- A write of the lower half keeps the upper one (R66). -/
theorem mergeBits_lower (old v : Word) :
    mergeBits old 0xFFFFFFFF v = old &&& 0xFFFFFFFF00000000 ||| v &&& 0x00000000FFFFFFFF := rfl

/-- A write of the upper half keeps the lower one (R66). -/
theorem mergeBits_upper (old v : Word) :
    mergeBits old 0xFFFFFFFF00000000 (v <<< 32) = old &&& 0x00000000FFFFFFFF ||| v <<< 32 := by
  rw [mergeBits, upperHalf_eq, ← BitVec.shiftLeft_and_distrib, BitVec.and_allOnes]
  rfl

/-! ### What registers read as -/

/-- CMD, RESULT and the argument registers by name. -/
theorem registerValues_reg {s : State} {r : Nat × Word} (h : r ∈ registerValues s) :
    ∃ g : Reg, r.1 = g.offset ∧ readReg g s = r.2 := by
  simp only [registerValues, List.mem_cons, List.not_mem_nil, or_false] at h
  rcases h with rfl | rfl | rfl | rfl | rfl | rfl | rfl | rfl | rfl | rfl | rfl | rfl
  · exact ⟨.cmd, rfl, rfl⟩
  · exact ⟨.result, rfl, rfl⟩
  · exact ⟨.regIn, rfl, rfl⟩
  · exact ⟨.argCfg, rfl, rfl⟩
  · exact ⟨.argPoly, rfl, rfl⟩
  · exact ⟨.argInit, rfl, rfl⟩
  · exact ⟨.argXorout, rfl, rfl⟩
  · exact ⟨.argCheck, rfl, rfl⟩
  · exact ⟨.dataAddr, rfl, rfl⟩
  · exact ⟨.dataLen, rfl, rfl⟩
  · exact ⟨.nameLen, rfl, rfl⟩
  · exact ⟨.slotMask, rfl, rfl⟩

/-- A step that writes an argument register: no other register of the window reads otherwise, nothing outside the
argument registers changes, and the register reads as its writable bits merged (R31, R32, R34, R35). -/
theorem argument_write {s t : State} {g : Reg} {m en v : Word} (hg : g.argMask = some m)
    (ht : t = { writeReg g en v (popped s) with resp := .done }) :
    ((∀ off, off % 8 = 0 → off < 0x100 → off ≠ g.offset → readAt off 8 t = readAt off 8 s) ∧
      t = { popped s with args := t.args, resp := .done }) ∧
    readAt g.offset 8 t = mergeBits (readAt g.offset 8 s) en v &&& m := by
  subst ht
  have hframe := writeReg_args (g := g) (by rintro rfl; cases hg) (by rintro rfl; cases hg) en v (popped s)
  refine ⟨⟨fun off hm hlt hne => ?_, ?_⟩, ?_⟩
  · exact readAt_whole_congr (fun g' hne' => by rw [readReg_setResp, readReg_writeReg_other hg hne', readReg_popped]) hm
      hlt hne
  · rw [hframe]
  · rw [readAt_whole, readAt_whole, readReg_setResp, readReg_writeReg_same hg, readReg_popped]

/-! ### Byte lanes -/

/-- The bits of a value put together from bytes (R66). -/
theorem ofBytes_getLsbD (bs : List Byte) (i : Nat) (hi : i < 64) :
    (ofBytes bs).getLsbD i = (bs.getD (i / 8) 0).getLsbD (i % 8) := by
  induction bs generalizing i with
  | nil => simp [ofBytes]
  | cons b bs ih =>
    simp only [ofBytes, BitVec.getLsbD_or, BitVec.getLsbD_setWidth, BitVec.getLsbD_shiftLeft, hi, decide_true,
      Bool.true_and]
    by_cases h8 : i < 8
    · simp [h8, Nat.div_eq_of_lt h8, Nat.mod_eq_of_lt h8]
    · have hdiv : i / 8 = (i - 8) / 8 + 1 := by omega
      have hmod : i % 8 = (i - 8) % 8 := by omega
      rw [ih _ (by omega), hdiv, hmod, List.getD_cons_succ, BitVec.getLsbD_of_ge b i (by omega)]
      simp [h8]

/-- Byte j of such a value is the j-th byte. -/
theorem ofBytes_lane {bs : List Byte} (hlen : bs.length ≤ 8) (j : Nat) (hj : j < bs.length) :
    (ofBytes bs).extractLsb' (8 * j) 8 = bs[j] := by
  apply BitVec.eq_of_getLsbD_eq
  intro i hi
  have hdiv : (8 * j + i) / 8 = j := by omega
  have hmod : (8 * j + i) % 8 = i := by omega
  rw [BitVec.getLsbD_extractLsb', ofBytes_getLsbD _ _ (by omega), hdiv, hmod]
  simp [hi, hj]

/-- Such a value is 0 above its bytes. -/
theorem ofBytes_shift (bs : List Byte) : ofBytes bs >>> (8 * bs.length) = 0 := by
  apply BitVec.eq_of_getLsbD_eq
  intro i hi
  rw [BitVec.getLsbD_ushiftRight]
  by_cases h : 8 * bs.length + i < 64
  · have hge : bs.length ≤ (8 * bs.length + i) / 8 := by omega
    rw [ofBytes_getLsbD _ _ h, List.getD_eq_default _ _ hge]
    simp
  · rw [BitVec.getLsbD_of_ge _ _ (by omega)]
    simp

/-! ### Bytes written under a command -/

/-- A byte written since the acceptance is a free value to the command (R266). -/
theorem commandByte_of_raced {s : State} {off : Nat} (h : off ∈ s.raced) :
    commandByte s off = Config.racedByte s.draw off := by
  simp [commandByte, h]

/-- What the command sees of one byte depends on that byte, whether it was written since the acceptance, and the number
of the acceptance (R266). -/
theorem commandByte_eq {s t : State} {off : Nat} (hr : off ∈ t.raced ↔ off ∈ s.raced)
    (hb : bufferByte t off = bufferByte s off) (hd : t.draw = s.draw) : commandByte t off = commandByte s off := by
  simp [commandByte, hr, hb, hd]

end Sys2Proof.Machine

section

open Sys2Proof Sys2Proof.Machine

/-- Settles O14: a half access is a register access with the half enabled, and merging keeps the other half. -/
theorem halfAccessesTouchOneHalf : Obligations.HalfAccessesTouchOneHalf := by
  intro s r v hr
  obtain ⟨g, hoff, hmask⟩ := argumentRegisters_reg hr
  rw [hoff]
  refine ⟨fun hw => ?_, fun hw => ?_, step_read_lower, step_read_upper⟩
  · obtain ⟨halone, hread⟩ := argument_write hmask rfl
    exact ⟨_, step_write_lower hw, halone, hread.trans (by rw [mergeBits_lower])⟩
  · obtain ⟨halone, hread⟩ := argument_write hmask rfl
    exact ⟨_, step_write_upper hw, halone, hread.trans (by rw [mergeBits_upper])⟩

/-- Settles O18: a legal access in a buffer lies in it, so a write is byte after byte in place and a read puts the bytes
together. -/
theorem bufferAccessesAreLittleEndian : Obligations.BufferAccessesAreLittleEndian := by
  intro s off size hc hl hin
  have hplace := inBuffer_of_access hc hl hin
  obtain ⟨habove, hwindow⟩ := inBuffer_bounds hc hin
  refine ⟨fun v hw => ?_, fun hr => ?_⟩
  · obtain ⟨inside, outside, raced, idle, rest⟩ := writeBytes_spec size off v (popped s) hplace
    have hstep := step_write hw hwindow hl
    rw [writeAt, if_neg (by omega)] at hstep
    have hdraw : (writeBytes size off v (popped s)).draw = s.draw := by rw [rest]; rfl
    refine ⟨_, hstep, inside, outside, fun hb j hj => ?_, fun _ a ha => ?_, idle, ?_⟩
    · have hraced := (raced (off + j)).2 (.inr ⟨hb, by omega⟩)
      exact (commandByte_of_raced hraced).trans (by rw [hdraw])
    · have hraced := raced a
      exact commandByte_eq (hraced.trans (or_iff_left (by omega))) (outside a ha) hdraw
    · rw [rest]
  · have hstep := step_read hr hwindow hl
    rw [readAt_popped, readAt, if_neg (by omega)] at hstep
    refine ⟨_, hstep, fun j hj => ?_, ?_⟩
    · rw [ofBytes_lane (by simpa using access_size_le hl) j (by simpa using hj)]
      simp [readBufferArea, hplace j hj]
    · simpa using ofBytes_shift ((List.range size).map fun j => readBufferArea s (off + j))

/-- Settles O19: the bad accesses are the illegal ones, and every region ends at a multiple of 8. -/
theorem badAccessesGetABusError : Obligations.BadAccessesGetABusError := by
  intro s off size v hin
  rw [← accessLegal_eq_false_iff, Bool.not_eq_false]
  refine ⟨fun hl => ⟨fun hw => step_write_error hw hin hl, fun hr => step_read_error hr hin hl⟩, fun hl => ?_⟩
  refine ⟨fun hw => ⟨_, step_write hw hin hl, rfl⟩, fun hr => ⟨_, _, step_read hr hin hl, rfl⟩, fun hc => ?_⟩
  obtain ⟨hname, -, hdbuf⟩ := conforming_buffers hc
  exact ⟨access_end_le hl (by decide), access_end_le hl (by omega), access_end_le hl (by decide),
    access_end_le hl (by omega) hin⟩

/-- Settles O20: a legal read is its answer, and what each register reads as is `readReg`. -/
theorem readsHaveNoSideEffect : Obligations.ReadsHaveNoSideEffect := by
  refine ⟨fun s off size hr hin => ⟨fun hl => ?_, fun hl => step_read_error hr hin hl⟩, fun s r hr => ?_,
    fun s off hm hlt => ⟨readAt_lower s hm hlt, readAt_upper s hm hlt⟩⟩
  · rw [step_read hr hin hl, readAt_popped]
  · obtain ⟨g, hoff, hval⟩ := registerValues_reg hr
    rw [hoff, readAt_whole, hval]

/-- Settles O21: an address outside the window has no offset. -/
theorem accessOutsideTheWindowFaults : Obligations.AccessOutsideTheWindowFaults := by
  intro s addr size v hout
  have hnone : windowOffset (popped s).hw addr = none := windowOffset_outside hout
  refine ⟨fun h => ?_, fun h => ?_⟩
  · rw [step_of_head s _ h, act, hostWrite, hnone]
  · rw [step_of_head s _ h, act, hostRead, hnone]

end

/-! ## The decoder, the encoder and the illegal words -/

namespace Sys2Proof

/-! ### The fields of a word and of a command -/

/-- A word whose RSV is 0 is its other three fields put side by side (R91). -/
theorem bytes_of_fields {c : Cmd} (hrsv : Cmd.rsv c = 0) :
    ((Cmd.imm c).setWidth 32 <<< 16) ||| ((Cmd.h c).setWidth 32 <<< 8) ||| (Cmd.opc c).setWidth 32 = c := by
  have hhigh : ∀ i, i < 8 → c.getLsbD (24 + i) = false := fun i hi => by
    simpa [Cmd.rsv, hi] using congrArg (BitVec.getLsbD · i) hrsv
  apply BitVec.eq_of_getLsbD_eq
  intro i hi
  simp only [Cmd.opc, Cmd.h, Cmd.imm, BitVec.getLsbD_or, BitVec.getLsbD_shiftLeft, BitVec.getLsbD_setWidth,
    BitVec.getLsbD_extractLsb', hi, decide_true, Bool.true_and]
  have htop := hhigh (i - 24)
  grind

/-- The fields of an encoded word, whatever the command (R91, R101). -/
theorem encode_fields (i : Instr) : Laws.EncodeFields.Statement i := Laws.fields_of_bytes _ _ _

/-- A command's H is 0 where its opcode does not use it (R92). -/
theorem Instr.handle_of_not_usesH {i : Instr} (h : usesH i.opcode = false) : i.handle = 0 := by
  cases i with
  | lookupPre | lookupList | build => rfl
  | cfg | release | init | update | final | check | tblrd | paramrd => cases h

/-- A command's IMM8 is 0 where its opcode does not use it (R92). -/
theorem Instr.immediate_of_not_usesImm {i : Instr} (h : usesImm i.opcode = false) : i.immediate = 0 := by
  cases i with
  | tblrd | paramrd => cases h
  | lookupPre | lookupList | build | cfg | release | init | update | final | check => rfl

/-! ### The commands the fields stand for -/

/-- A command's own fields give it back (R90, R92). -/
theorem instrOf_fields (i : Instr) : instrOf i.opcode i.handle i.immediate = some i := by
  cases i <;> rfl

/-- The command three fields give has that opcode, and of the other fields those its opcode uses (R90, R92). -/
theorem instrOf_eq_some {opc h imm : BitVec 8} {i : Instr} (e : instrOf opc h imm = some i) :
    i.opcode = opc ∧ (usesH opc = true → i.handle = h) ∧ (usesImm opc = true → i.immediate = imm) := by
  simp only [instrOf, ite_eq_iff, Option.some.injEq, reduceCtorEq, and_false, or_false] at e
  iterate 10
    obtain ⟨rfl, rfl⟩ | ⟨-, e⟩ := e
    · simp [usesH, usesImm, Instr.opcode, Instr.handle, Instr.immediate]
  obtain ⟨rfl, rfl⟩ := e
  simp [usesH, usesImm, Instr.opcode]

/-- The unassigned opcodes (R90, R98). -/
theorem instrOf_eq_none {opc h imm : BitVec 8} : instrOf opc h imm = none ↔ opc = 0x00 ∨ 0x0C ≤ opc.toNat := by
  simp only [instrOf, ite_eq_iff, reduceCtorEq, and_false, false_or, and_true]
  bv_omega

/-- Of the commands fields can give, only a PARAMRD with an unassigned selector is not legal (R98, R99). -/
theorem instrOf_not_wf {opc h imm : BitVec 8} :
    (∃ i, instrOf opc h imm = some i ∧ i.wf = false) ↔ opc = 0x0A ∧ selectorLegal imm = false := by
  constructor
  · rintro ⟨i, e, hwf⟩
    cases i with
    | paramrd hd sel =>
      obtain ⟨rfl, -, himm⟩ := instrOf_eq_some e
      cases himm rfl
      exact ⟨rfl, hwf⟩
    | cfg | release | init | update | final | lookupPre | lookupList | check | tblrd | build => cases hwf
  · rintro ⟨rfl, hsel⟩
    exact ⟨.paramrd h imm, rfl, hsel⟩

/-! ### What the decoder accepts and refuses -/

/-- The decoder accepts a word exactly when it passes R96's five checks, as the command of its fields. -/
theorem decode_eq_ok (c : Cmd) (i : Instr) :
    decode c = .ok i ↔
      instrOf (Cmd.opc c) (Cmd.h c) (Cmd.imm c) = some i ∧ Cmd.rsv c = 0 ∧
        (usesH (Cmd.opc c) = false → Cmd.h c = 0) ∧ (usesImm (Cmd.opc c) = false → Cmd.imm c = 0) ∧
        i.wf = true := by
  unfold decode
  cases instrOf (Cmd.opc c) (Cmd.h c) (Cmd.imm c) with
  | none => simp
  | some j =>
    simp only [ite_eq_iff, reduceCtorEq, and_false, false_or, ne_eq, not_not, not_and, Bool.not_eq_false,
      Option.some.injEq, Except.ok.injEq]
    constructor
    · rintro ⟨hrsv, hh, himm, hwf, rfl⟩
      exact ⟨rfl, hrsv, hh, himm, hwf⟩
    · rintro ⟨rfl, hrsv, hh, himm, hwf⟩
      exact ⟨hrsv, hh, himm, hwf, rfl⟩

/-- The decoder refuses a word exactly when it fails one of R96's five checks. -/
theorem decode_eq_error (c : Cmd) :
    (∃ e, decode c = .error e) ↔
      instrOf (Cmd.opc c) (Cmd.h c) (Cmd.imm c) = none ∨ Cmd.rsv c ≠ 0 ∨
        (usesH (Cmd.opc c) = false ∧ Cmd.h c ≠ 0) ∨ (usesImm (Cmd.opc c) = false ∧ Cmd.imm c ≠ 0) ∨
        ∃ i, instrOf (Cmd.opc c) (Cmd.h c) (Cmd.imm c) = some i ∧ i.wf = false := by
  have hok : (∃ e, decode c = .error e) ↔ ∀ i, decode c ≠ .ok i := by
    cases decode c <;> simp
  simp only [hok, ne_eq, decode_eq_ok]
  cases instrOf (Cmd.opc c) (Cmd.h c) (Cmd.imm c) with
  | none => simp
  | some j =>
    simp only [Option.some.injEq, reduceCtorEq, false_or, exists_eq_left', not_and, forall_eq', Bool.not_eq_true]
    tauto

/-- The opcodes that do not use H: three commands', and the unassigned ones (R92). -/
theorem usesH_eq_false {opc : BitVec 8} :
    usesH opc = false ↔ (opc = 0x06 ∨ opc = 0x07 ∨ opc = 0x0B) ∨ opc = 0x00 ∨ 0x0C ≤ opc.toNat := by
  revert opc
  decide

theorem usesImm_eq_false {opc : BitVec 8} : usesImm opc = false ↔ opc ≠ 0x09 ∧ opc ≠ 0x0A := by
  simp [usesImm]

theorem selectorLegal_eq_false {sel : BitVec 8} :
    selectorLegal sel = false ↔ 0x07 ≤ sel.toNat ∧ sel.toNat ≤ 0x7F := by
  simp only [selectorLegal, Bool.or_eq_false_iff, decide_eq_false_iff_not]
  omega

/-- The illegal words, by the fields' names (R93, R98). -/
theorem illegalWord_iff (c : Cmd) :
    IllegalWord c ↔
      (Cmd.opc c = 0x00 ∨ 0x0C ≤ (Cmd.opc c).toNat) ∨ Cmd.rsv c ≠ 0 ∨
        (Cmd.h c ≠ 0 ∧ (Cmd.opc c = 0x06 ∨ Cmd.opc c = 0x07 ∨ Cmd.opc c = 0x0B)) ∨
        (Cmd.imm c ≠ 0 ∧ Cmd.opc c ≠ 0x09 ∧ Cmd.opc c ≠ 0x0A) ∨
        (Cmd.opc c = 0x0A ∧ 0x07 ≤ (Cmd.imm c).toNat ∧ (Cmd.imm c).toNat ≤ 0x7F) :=
  or_assoc.symm

/-- Exactly the illegal words are refused: R96's checks against R93's and R98's clauses. -/
theorem illegalWord_iff_decode_eq_error (c : Cmd) : IllegalWord c ↔ ∃ e, decode c = .error e := by
  rw [illegalWord_iff, decode_eq_error, instrOf_eq_none, instrOf_not_wf, usesH_eq_false, usesImm_eq_false,
    selectorLegal_eq_false]
  tauto

end Sys2Proof

section

open Sys2Proof Sys2Proof.Machine

/-- Settles O1: the encoded word's fields are the command's, so they pass every check and give the command back. -/
theorem decodeOfEncodeIsTheCommand : Obligations.DecodeOfEncodeIsTheCommand := by
  intro i hwf
  obtain ⟨hopc, hh, himm, hrsv⟩ := encode_fields i
  rw [decode_eq_ok, hopc, hh, himm]
  exact ⟨instrOf_fields i, hrsv, Instr.handle_of_not_usesH, Instr.immediate_of_not_usesImm, hwf⟩

/-- Settles O2: each field the command's opcode uses is the word's, each other one is 0 in both, and RSV is 0. -/
theorem acceptedWordsAreEncodings : Obligations.AcceptedWordsAreEncodings := by
  intro c i hd
  obtain ⟨hi, hrsv, hh, himm, hwf⟩ := (decode_eq_ok c i).1 hd
  obtain ⟨hopc, hused, hused'⟩ := instrOf_eq_some hi
  have hhandle : i.handle = Cmd.h c := by
    cases hu : usesH (Cmd.opc c) with
    | true => exact hused hu
    | false => rw [hh hu, Instr.handle_of_not_usesH (hopc ▸ hu)]
  have himmediate : i.immediate = Cmd.imm c := by
    cases hu : usesImm (Cmd.opc c) with
    | true => exact hused' hu
    | false => rw [himm hu, Instr.immediate_of_not_usesImm (hopc ▸ hu)]
  refine ⟨?_, hwf⟩
  rw [encode, hopc, hhandle, himmediate, bytes_of_fields hrsv]

/-- Settles O3: the illegal words are the refused ones, and a refused word raises ILLEGAL_COMMAND and nothing else. -/
theorem illegalWordsChangeOnlyStatus : Obligations.IllegalWordsChangeOnlyStatus := by
  refine ⟨illegalWord_iff_decode_eq_error, fun s hb hill => ?_⟩
  obtain ⟨e, he⟩ := (illegalWord_iff_decode_eq_error _).1 hill
  rw [engineTurn, if_pos hb, complete, he, raise_eq]

/-- Settles O4: each word is closed, and the decoder computes. -/
theorem writtenOutWordsDecode : Obligations.WrittenOutWordsDecode :=
  ⟨rfl, rfl, rfl, rfl, rfl, rfl⟩

end

/-! ## The handle check -/

namespace Sys2Proof.Machine

open Sys2Proof

/-! ### check_handle against the model's own forms -/

/-- check_handle by the names of a handle's fields (R94, R95). -/
theorem handleCode_eq (opc h : BitVec 8) (s : State) :
    handleCode opc h s =
      if handleIsCatalog h then
        if opc = 0x01 ∨ opc = 0x02 then some .badHandle
        else if s.hw.catalog.length ≤ (handleEntry h).toNat then some .badHandle
        else if regstate s.registry ≠ 0b10 then some .notReady
        else none
      else if handleIsVoid h then some .badHandle
      else if s.hw.nUser ≤ (handleSlot h).toNat then some .badHandle
      else if opc = 0x01 then (if (slotAt s (handleSlot h)).isSome then some .slotInUse else none)
      else (if (slotAt s (handleSlot h)).isNone then some .slotEmpty else none) := rfl

/-- On a handle that names a user slot the check looks only at whether it holds a model (R95). -/
theorem handleCode_of_userSlot {opc h : BitVec 8} {s : State} {k : BitVec 6} (e : userSlot s.hw h = .ok k) :
    handleCode opc h s =
      if opc = 0x01 then (if (slotAt s k).isSome then some .slotInUse else none)
      else (if (slotAt s k).isNone then some .slotEmpty else none) := by
  obtain ⟨hcat, hvoid, rfl, hk⟩ := (userSlot_eq_ok _ _ _).1 e
  rw [handleCode_eq, if_neg (by simp [hcat]), if_neg (by simp [hvoid]), if_neg hk.not_ge]

/-- A handle that names no user slot is bad for CFG and RELEASE, and for every command when it names no catalog entry
either (R95). -/
theorem handleCode_of_userSlot_error {opc h : BitVec 8} {s : State} {c : Code} (e : userSlot s.hw h = .error c)
    (hopc : handleIsCatalog h = false ∨ opc = 0x01 ∨ opc = 0x02) : handleCode opc h s = some c := by
  unfold userSlot at e
  rw [handleCode_eq]
  split_ifs at e with hcat hvoid hk
  · cases e
    rw [if_pos hcat, if_pos (hopc.resolve_left (by simp [hcat]))]
  · cases e
    rw [if_neg hcat, if_pos hvoid]
  · cases e
    rw [if_neg hcat, if_neg hvoid, if_pos (Nat.le_of_not_lt hk)]

/-- In a run every catalog entry has its table once the registry is READY, and only then (R39, R209). -/
theorem Inv.catalogTableAt_eq_none {s : State} (hi : Inv s) {n : Nat} (hn : n < s.hw.catalog.length) :
    catalogTableAt s.registry n = none ↔ regstate s.registry ≠ 0b10 := by
  cases hr : s.registry with
  | uninitialized | building => simp [catalogTableAt, regstate]
  | ready ts =>
    cases hi.tablesBuilt ts hr
    simp [catalogTableAt, regstate, catalogTables, hn]

/-- For a command that reads a model, the model's handle check ends in exactly the code check_handle raises (R95). -/
theorem handleCode_eq_some_iff {s : State} (hi : Inv s) {opc h : BitVec 8} (hopc : opc ≠ 0x01 ∧ opc ≠ 0x02)
    (c : Code) :
    handleCode opc h s = some c ↔ namedModel h s = .error c := by
  unfold namedModel
  cases hcat : handleIsCatalog h with
  | true =>
    rw [handleCode_eq, if_pos hcat, if_neg (not_or.2 hopc), if_pos rfl]
    by_cases hn : s.hw.catalog.length ≤ (handleEntry h).toNat
    · simp [hn]
    · have htable := hi.catalogTableAt_eq_none (Nat.lt_of_not_le hn)
      rw [if_neg hn, List.getElem?_eq_getElem (Nat.lt_of_not_le hn)]
      cases ht : catalogTableAt s.registry (handleEntry h).toNat with
      | none =>
        rw [if_pos (htable.1 ht)]
        simp
      | some t =>
        rw [if_neg (mt htable.2 (by simp [ht]))]
        simp
  | false =>
    rw [if_neg (by simp)]
    cases hu : userSlot s.hw h with
    | error c' => simp [handleCode_of_userSlot_error hu (.inl hcat)]
    | ok k =>
      rw [handleCode_of_userSlot hu, if_neg hopc.1]
      cases hs : slotAt s k <;> simp [hs]

/-! ### A command after the handle check -/

/-- The command ended, and with none of the codes of R95. -/
def EndsPastHandleCheck (o : Outcome) : Prop :=
  ∃ t, o = .next t ∧ t.err ≠ .badHandle ∧ t.err ≠ .notReady ∧ t.err ≠ .slotEmpty ∧ t.err ≠ .slotInUse

/-- The command did what `code` says: raised it, or passed the handle check (R95). -/
def FollowsHandleCheck (code : Option Code) (s : State) (o : Outcome) : Prop :=
  (∀ c, code = some c → o = raise c s) ∧ (code = none → EndsPastHandleCheck o)

theorem followsHandleCheck_of_some {code : Option Code} {c : Code} {s : State} (h : code = some c) :
    FollowsHandleCheck code s (raise c s) := by
  subst h
  exact ⟨fun _ e => Option.some.inj e ▸ rfl, nofun⟩

theorem followsHandleCheck_of_none {code : Option Code} {s : State} {o : Outcome} (h : code = none)
    (ho : EndsPastHandleCheck o) : FollowsHandleCheck code s o := by
  subst h
  exact ⟨nofun, fun _ => ho⟩

theorem finish_endsPastHandleCheck {c : Code}
    (hc : c ≠ .badHandle ∧ c ≠ .notReady ∧ c ≠ .slotEmpty ∧ c ≠ .slotInUse) (s : State) :
    EndsPastHandleCheck (finish c s) := ⟨_, rfl, hc⟩

theorem checkModel_endsPastHandleCheck (m : Model) (s : State) : EndsPastHandleCheck (checkModel m s) := by
  unfold checkModel
  split
  · exact finish_endsPastHandleCheck (by decide) _
  · split <;> exact finish_endsPastHandleCheck (by decide) _

theorem updateModel_endsPastHandleCheck (m : Model) (s : State) : EndsPastHandleCheck (updateModel m s) := by
  unfold updateModel
  split
  · exact finish_endsPastHandleCheck (by decide) _
  · split <;> exact finish_endsPastHandleCheck (by decide) _

theorem commitModel_endsPastHandleCheck (k : BitVec 6) (m : Model) (s : State) :
    EndsPastHandleCheck (commitModel k m s) := by
  unfold commitModel
  split
  · split
    · exact finish_endsPastHandleCheck (by decide) _
    · split <;> exact finish_endsPastHandleCheck (by decide) _
  · exact finish_endsPastHandleCheck (by decide) _

theorem configureSlot_endsPastHandleCheck (k : BitVec 6) (s : State) : EndsPastHandleCheck (configureSlot k s) := by
  unfold configureSlot
  split
  · exact finish_endsPastHandleCheck (by decide) _
  · split
    · exact finish_endsPastHandleCheck (by decide) _
    · exact commitModel_endsPastHandleCheck _ _ _

/-! ### Every command that takes a handle -/

section

variable (h : BitVec 8) (s : State)

theorem execCfg_followsHandleCheck :
    FollowsHandleCheck (handleCode 0x01 h (buildIfDue s)) (buildIfDue s) (execCfg h s) := by
  unfold execCfg
  split
  · rename_i hu
    exact followsHandleCheck_of_some (handleCode_of_userSlot_error (by simpa using hu) (by simp))
  · rename_i hu
    have hcode := handleCode_of_userSlot (opc := 0x01) (s := buildIfDue s) (by simpa using hu)
    split
    · rename_i hs
      exact followsHandleCheck_of_some (hcode.trans (by simp [hs]))
    · rename_i hs
      exact followsHandleCheck_of_none (hcode.trans (by simp [hs])) (configureSlot_endsPastHandleCheck _ _)

theorem execRelease_followsHandleCheck :
    FollowsHandleCheck (handleCode 0x02 h (buildIfDue s)) (buildIfDue s) (execRelease h s) := by
  unfold execRelease
  split
  · rename_i hu
    exact followsHandleCheck_of_some (handleCode_of_userSlot_error (by simpa using hu) (by simp))
  · rename_i hu
    have hcode := handleCode_of_userSlot (opc := 0x02) (s := buildIfDue s) (by simpa using hu)
    split
    · rename_i hs
      exact followsHandleCheck_of_some (hcode.trans (by simp [hs]))
    · rename_i hs
      exact followsHandleCheck_of_none (hcode.trans (by simp [hs])) (finish_endsPastHandleCheck (by decide) _)

variable {h s}

/-- The six commands that read a model, whatever their rule on it, as long as it raises none of R95's codes. -/
theorem withModel_followsHandleCheck (hi : Inv s) {opc : BitVec 8} (hopc : opc ≠ 0x01 ∧ opc ≠ 0x02)
    {body : Model → State → Outcome} (hb : ∀ m, EndsPastHandleCheck (body m (buildIfDue s))) :
    FollowsHandleCheck (handleCode opc h (buildIfDue s)) (buildIfDue s) (withModel h s body) := by
  have hcode := handleCode_eq_some_iff (h := h) hi.buildIfDue hopc
  unfold withModel
  cases hm : namedModel h (buildIfDue s) with
  | error c => exact followsHandleCheck_of_some ((hcode c).2 hm)
  | ok m =>
    refine followsHandleCheck_of_none (Option.eq_none_iff_forall_ne_some.2 fun c hc => ?_) (hb m)
    cases hm.symm.trans ((hcode c).1 hc)

end

/-- Every legal command that takes a handle does what check_handle says (R95). -/
theorem exec_followsHandleCheck {s : State} {i : Instr} (hi : Inv s) (hwf : i.wf = true) (hu : usesH i.opcode = true) :
    FollowsHandleCheck (handleCode i.opcode i.handle (buildIfDue s)) (buildIfDue s) (exec i s) := by
  cases i with
  | cfg h => exact execCfg_followsHandleCheck h s
  | release h => exact execRelease_followsHandleCheck h s
  | init h | final h | tblrd h idx =>
    exact withModel_followsHandleCheck hi (by simp [Instr.opcode]) fun m => finish_endsPastHandleCheck (by decide) _
  | update h =>
    exact withModel_followsHandleCheck hi (by simp [Instr.opcode]) fun m => updateModel_endsPastHandleCheck m _
  | check h =>
    exact withModel_followsHandleCheck hi (by simp [Instr.opcode]) fun m => checkModel_endsPastHandleCheck m _
  | paramrd h sel =>
    have hexec : exec (.paramrd h sel) s = withModel h s fun m s => finishWith (paramField m sel) .ok s := if_pos hwf
    rw [hexec]
    exact withModel_followsHandleCheck hi (by simp [Instr.opcode]) fun m => finish_endsPastHandleCheck (by decide) _
  | lookupPre | lookupList | build => cases hu

end Sys2Proof.Machine

section

open Sys2Proof Sys2Proof.Machine

/-- Settles O26: by the command; for those that read a model the invariant is what gives every READY entry its table. -/
theorem handleCheckFollowsTheRule : Obligations.HandleCheckFollowsTheRule :=
  fun _ _ hi hwf hu => exec_followsHandleCheck hi hwf hu

end

/-! ## Reversal and the table generator, bit by bit -/

namespace Sys2Proof.Machine

open Sys2Proof

/-! ### Ranges and reversal -/

/-- The in-range test as the rules write it (R17). -/
theorem inRange_iff_and_not_mask (w : Width) (r : Word) : inRange w r = true ↔ r &&& ~~~ mask w = 0 :=
  beq_iff_eq

/-- Masking is linear. -/
theorem xor_and_mask (w : Width) (a b : Word) : (a ^^^ b) &&& mask w = (a &&& mask w) ^^^ (b &&& mask w) := by
  apply BitVec.eq_of_getLsbD_eq
  intro j _
  simp only [BitVec.getLsbD_and, BitVec.getLsbD_xor, Bool.and_xor_distrib_right]

/-- Reversal is an involution on every 64-bit value (R122). -/
@[simp] theorem rev_rev (w : Width) (v : Word) : rev w (rev w v) = v := by
  apply BitVec.eq_of_getLsbD_eq
  intro j _
  by_cases hj : j < w.bits
  · have hback : w.bits - 1 - (w.bits - 1 - j) = j := by omega
    have hlt : w.bits - 1 - j < w.bits := by omega
    rw [rev_getLsbD, if_pos hj, rev_getLsbD, if_pos hlt, hback]
  · rw [rev_getLsbD, if_neg hj, rev_getLsbD, if_neg hj]

theorem rev_zero (w : Width) : rev w 0 = 0 := by
  have h := rev_xor w 0 0
  rwa [BitVec.xor_self, BitVec.xor_self] at h

/-! ### The aligned index -/

/-- For w = 8 the alignment of a non-reflected index shifts by 0, so it needs no case of its own. -/
theorem alignIndex_eq (w : Width) (refin : Bool) (idx : Word) :
    alignIndex w refin idx = if refin then rev w idx else idx <<< (w.bits - 8) := by
  unfold alignIndex
  by_cases hw : 8 < w.bits
  · rw [if_pos hw]
  · have hzero : w.bits - 8 = 0 := by omega
    rw [if_neg hw, hzero, BitVec.shiftLeft_zero]

/-- Steps 1 and 2 of R125 put the index byte, its bits reversed when REFIN = 1, at the top of the w-bit register. -/
theorem alignIndex_byte (w : Width) (refin : Bool) (i : BitVec 8) :
    alignIndex w refin (i.setWidth 64) = (if refin then i.reverse else i).setWidth 64 <<< (w.bits - 8) := by
  cases refin with
  | false => exact alignIndex_eq w false _
  | true =>
    have h8 := Width.eight_le_bits w
    rw [alignIndex_eq]
    apply BitVec.eq_of_getLsbD_eq
    intro j hj
    simp only [if_true, rev_getLsbD, BitVec.getLsbD_setWidth, BitVec.getLsbD_shiftLeft, BitVec.getLsbD_reverse,
      BitVec.getMsbD_eq_getLsbD]
    by_cases hlow : j < w.bits - 8
    · have hout : i.getLsbD (w.bits - 1 - j) = false := BitVec.getLsbD_of_ge i _ (by omega)
      have hlt : j < w.bits := by omega
      simp [hlow, hlt, hout]
    · by_cases hlt : j < w.bits
      · have hindex : w.bits - 1 - j = 7 - (j - (w.bits - 8)) := by omega
        have hbyte : j - (w.bits - 8) < 8 := by omega
        have hword : 7 - (j - (w.bits - 8)) < 64 := by omega
        have hword' : j - (w.bits - 8) < 64 := by omega
        simp [hj, hlow, hlt, hindex, hbyte, hword, hword']
      · have hout : i.getLsbD j = false := BitVec.getLsbD_of_ge i _ (by omega)
        have hbyte : ¬ j - (w.bits - 8) < 8 := by omega
        simp [hlt, hout, hbyte]

/-- No bit of a byte at the top of the register stands at or above w. -/
theorem inRange_byte_at_top (w : Width) (b : BitVec 8) : inRange w (b.setWidth 64 <<< (w.bits - 8)) = true := by
  have h8 := Width.eight_le_bits w
  rw [inRange_iff_getLsbD]
  intro j hj
  rw [BitVec.getLsbD_shiftLeft, BitVec.getLsbD_setWidth, BitVec.getLsbD_of_ge b _ (by omega)]
  simp

theorem inRange_alignIndex (w : Width) (refin : Bool) (i : BitVec 8) :
    inRange w (alignIndex w refin (i.setWidth 64)) = true := by
  rw [alignIndex_byte]
  exact inRange_byte_at_top w _

/-- Alignment is linear. -/
theorem alignIndex_xor (w : Width) (refin : Bool) (a b : Word) :
    alignIndex w refin (a ^^^ b) = alignIndex w refin a ^^^ alignIndex w refin b := by
  simp only [alignIndex_eq]
  cases refin with
  | false => exact BitVec.shiftLeft_xor_distrib a b _
  | true => exact rev_xor w a b

/-! ### The rounds of the division -/

theorem divRounds_eq_iterate (w : Width) (p : Word) (n : Nat) (e : Word) :
    divRounds w p n e = (divRound w p)^[n] e := by
  induction n generalizing e with
  | zero => rfl
  | succ n ih => exact ih (divRound w p e)

/-- `n` rounds on a register whose top `n` bits are 0 only shift: no round meets a set top bit. -/
theorem divRounds_of_top_clear (w : Width) (p : Word) (n : Nat) (e : Word)
    (h : ∀ j, w.bits - n ≤ j → e.getLsbD j = false) : divRounds w p n e = e <<< n := by
  induction n generalizing e with
  | zero => simp [divRounds]
  | succ n ih =>
    have hround : divRound w p e = e <<< 1 := by simp [divRound, h (w.bits - 1) (by omega)]
    rw [divRounds, hround, ih, ← BitVec.shiftLeft_add, Nat.add_comm]
    intro j hj
    rw [BitVec.getLsbD_shiftLeft]
    by_cases h1 : j < 1
    · simp [h1]
    · simp [h (j - 1) (by omega)]

/-- By the polynomial 0 a round only shifts. -/
theorem divRounds_zero_poly (w : Width) (n : Nat) (e : Word) : divRounds w 0 n e = e <<< n := by
  induction n generalizing e with
  | zero => simp [divRounds]
  | succ n ih =>
    have hround : divRound w 0 e = e <<< 1 := by simp [divRound]
    rw [divRounds, hround, ih, ← BitVec.shiftLeft_add, Nat.add_comm]

/-- A byte at the top of the register is shifted out in eight rounds. -/
theorem byte_at_top_shift (w : Width) (b : BitVec 8) : b.setWidth 64 <<< (w.bits - 8) <<< 8 &&& mask w = 0#64 := by
  have h8 := Width.eight_le_bits w
  have hlt : ∀ j, j < w.bits → j < w.bits - 8 + 8 := by omega
  apply BitVec.eq_of_getLsbD_eq
  intro j _
  rw [← BitVec.shiftLeft_add, BitVec.getLsbD_and, mask_getLsbD, BitVec.getLsbD_shiftLeft]
  by_cases hj : j < w.bits <;> simp [hj, hlt]

/-- The byte 1 at the top leaves the polynomial: seven rounds bring its bit to the top, the eighth takes it off (R127). -/
theorem divRounds_one_at_top (w : Width) (p : Word) : divRounds w p 8 (1#64 <<< (w.bits - 8)) &&& mask w = p &&& mask w := by
  have h8 := Width.eight_le_bits w
  have hseven : divRounds w p 7 (1#64 <<< (w.bits - 8)) = 1#64 <<< (w.bits - 8) <<< 7 := by
    refine divRounds_of_top_clear w p 7 _ fun j hj => ?_
    have hne : j - (w.bits - 8) ≠ 0 := by omega
    simp [hne]
  have htop : (1#64 <<< (w.bits - 8) <<< 7).getLsbD (w.bits - 1) = true := by
    have h64 := Width.bits_le w
    have hsum : w.bits - 8 + 7 = w.bits - 1 := by omega
    have hlt : w.bits - 1 < 64 := by omega
    rw [← BitVec.shiftLeft_add, hsum]
    simp [hlt]
  rw [divRounds_eq_iterate, Function.iterate_succ_apply', ← divRounds_eq_iterate, hseven, divRound, if_pos htop,
    ← BitVec.shiftLeft_add, xor_and_mask]
  have hout := byte_at_top_shift w 1
  simpa using hout

/-! ### Table entries -/

/-- An entry is linear in its index (R127). -/
theorem tableEntry_xor (w : Width) (poly : Word) (refin : Bool) (a b : Word) :
    tableEntry w poly refin (a ^^^ b) = tableEntry w poly refin a ^^^ tableEntry w poly refin b := by
  simp only [tableEntry, alignIndex_xor, divRounds_xor]
  cases refin <;> simp [rev_xor, xor_and_mask]

theorem tableEntry_zero (w : Width) (poly : Word) (refin : Bool) : tableEntry w poly refin 0 = 0 := by
  have h := tableEntry_xor w poly refin 0 0
  rwa [BitVec.xor_self, BitVec.xor_self] at h

/-- Masking and reversal in either order: an entry is the masked remainder, reversed when REFIN = 1. -/
theorem tableEntry_eq (w : Width) (poly : Word) (refin : Bool) (idx : Word) :
    tableEntry w poly refin idx =
      if refin then rev w (divRounds w (poly &&& mask w) 8 (alignIndex w refin idx) &&& mask w)
      else divRounds w (poly &&& mask w) 8 (alignIndex w refin idx) &&& mask w := by
  cases refin <;> simp [tableEntry, rev_and_mask]

end Sys2Proof.Machine

/-! ## The masked form of the generator, and the update engine against the division -/

namespace Sys2Proof.Machine

open Sys2Proof

/-! ### The masked form -/

/-- One round of R126's masked form. -/
def maskedRound (w : Width) (p e : Word) : Word :=
  ((e <<< 1) &&& mask w) ^^^ (if e.getLsbD (w.bits - 1) then p else 0)

/-- Masking before a round loses nothing that masking after it keeps: the round reads bit w-1, which the mask leaves, and
moves bits up. -/
theorem maskedRound_and_mask {w : Width} {p : Word} (hp : p &&& mask w = p) (e : Word) :
    divRound w p e &&& mask w = maskedRound w p (e &&& mask w) := by
  have hpos := Width.bits_pos w
  have htop : (e &&& mask w).getLsbD (w.bits - 1) = e.getLsbD (w.bits - 1) := by
    simp [mask_getLsbD, hpos]
  have hshift : (e &&& mask w) <<< 1 &&& mask w = e <<< 1 &&& mask w := by
    apply BitVec.eq_of_getLsbD_eq
    intro j _
    simp only [BitVec.getLsbD_and, BitVec.getLsbD_shiftLeft, mask_getLsbD]
    by_cases hj : j < w.bits
    · have hprev : j - 1 < w.bits := by omega
      simp [hj, hprev]
    · simp [hj]
  rw [maskedRound, htop, hshift, divRound]
  cases e.getLsbD (w.bits - 1) with
  | false => simp
  | true => simp [xor_and_mask, hp]

theorem maskedRounds_and_mask {w : Width} {p : Word} (hp : p &&& mask w = p) (n : Nat) (e : Word) :
    divRounds w p n e &&& mask w = (maskedRound w p)^[n] (e &&& mask w) := by
  rw [divRounds_eq_iterate]
  exact Function.Semiconj.iterate_right (f := (· &&& mask w)) (maskedRound_and_mask hp) n e

/-- The masked entry is eight masked rounds of the aligned index, reversed when REFIN = 1. -/
theorem maskedEntry_eq (w : Width) (poly : Word) (refin : Bool) (idx : Word) :
    maskedEntry w poly refin idx =
      let e := (maskedRound w (poly &&& mask w))^[8] (alignIndex w refin idx)
      if refin then rev w e else e := by
  have hfold := List.foldl_const (maskedRound w (poly &&& mask w)) (alignIndex w refin idx) (List.range 8)
  rw [alignIndex_eq] at hfold ⊢
  simp only [maskedEntry]
  exact congrArg (fun e => if refin then rev w e else e) hfold

/-! ### The table-driven step -/

/-- Eight rounds on a register split into its top byte and the rest: the rest is only shifted, and the top byte gives
the table's remainder. -/
theorem divRounds_split (w : Width) (p rest top : Word) (h : ∀ j, w.bits - 8 ≤ j → rest.getLsbD j = false) :
    divRounds w p 8 (rest ^^^ top) = rest <<< 8 ^^^ divRounds w p 8 top := by
  rw [divRounds_xor, divRounds_of_top_clear w p 8 rest h]

/-- `r[w-1:w-8]`, the byte of an in-range register that meets the message in step_N (R164). -/
def topByte (w : Width) (r : Word) : Byte := (r >>> (w.bits - 8)).setWidth 8

/-- step_N's table index (R160, R164). -/
theorem stepNormal_index (w : Width) (r : Word) (b : Byte) :
    ((r >>> (w.bits - 8)) ^^^ b.setWidth 64).setWidth 8 = topByte w r ^^^ b := by
  simp [topByte, BitVec.setWidth_xor]

/-- Of an in-range register with its top byte taken out, the top byte's places are 0. -/
theorem topByte_cleared {w : Width} {r : Word} (hr : inRange w r = true) (j : Nat) (hj : w.bits - 8 ≤ j) :
    (r ^^^ ((topByte w r).setWidth 64 <<< (w.bits - 8))).getLsbD j = false := by
  have h8 := Width.eight_le_bits w
  have h64 := Width.bits_le w
  rw [inRange_iff_getLsbD] at hr
  by_cases hlt : j < w.bits
  · have hbyte : j - (w.bits - 8) < 8 := by omega
    have hword : j - (w.bits - 8) < 64 := by omega
    have hj64 : j < 64 := by omega
    have hback : w.bits - 8 + (j - (w.bits - 8)) = j := by omega
    simp [topByte, hj64, hj, hbyte, hword, hback]
  · have hbyte : ¬ j - (w.bits - 8) < 8 := by omega
    simp [topByte, hr j (by omega), hbyte]

/-- The byte of a message at the top of the register meets the register's top byte alone, and the two together are the
index step_N aligns. -/
theorem xor_byte_split_normal (w : Width) (r : Word) (b : Byte) :
    r ^^^ (b.setWidth 64 <<< (w.bits - 8)) =
      (r ^^^ ((topByte w r).setWidth 64 <<< (w.bits - 8))) ^^^ alignIndex w false ((topByte w r ^^^ b).setWidth 64) := by
  have halign : alignIndex w false ((topByte w r ^^^ b).setWidth 64) =
      ((topByte w r).setWidth 64 <<< (w.bits - 8)) ^^^ (b.setWidth 64 <<< (w.bits - 8)) := by
    rw [BitVec.setWidth_xor, alignIndex_xor, alignIndex_byte, alignIndex_byte]
    rfl
  rw [halign, BitVec.xor_assoc, ← BitVec.xor_assoc ((topByte w r).setWidth 64 <<< (w.bits - 8)), BitVec.xor_self,
    BitVec.zero_xor]

/-- The top byte is shifted out, so taking it out first does not matter. -/
theorem topByte_shifted_out (w : Width) (r : Word) :
    (r ^^^ ((topByte w r).setWidth 64 <<< (w.bits - 8))) <<< 8 &&& mask w = r <<< 8 &&& mask w := by
  rw [BitVec.shiftLeft_xor_distrib, xor_and_mask, byte_at_top_shift, BitVec.xor_zero]

/-- step_N is polynomial division by the byte, on a built table (R125, R160). -/
theorem stepNormal_eq_division {m : Model} {r : Word} (b : Byte) (ht : m.table = buildTable m.width m.poly false)
    (hp : m.poly &&& mask m.width = m.poly) (hr : inRange m.width r = true) :
    stepNormal m r b =
      divRounds m.width m.poly 8 (r ^^^ (b.setWidth 64 <<< (m.width.bits - 8))) &&& mask m.width := by
  rw [xor_byte_split_normal, divRounds_split _ _ _ _ (topByte_cleared hr), xor_and_mask, topByte_shifted_out,
    stepNormal, stepNormal_index, ht, entry_buildTable, tableEntry_eq, hp, xor_and_mask]
  simp

/-- Reversal turns a shift down by a byte into a shift up by a byte (R161 against R125). -/
theorem rev_shift_byte {w : Width} {r : Word} (hr : inRange w r = true) :
    rev w (rev w (r >>> 8 <<< 8) <<< 8) &&& mask w = r >>> 8 &&& mask w := by
  have h64 := Width.bits_le w
  rw [inRange_iff_getLsbD] at hr
  apply BitVec.eq_of_getLsbD_eq
  intro j hj
  rw [BitVec.getLsbD_and, BitVec.getLsbD_and, mask_getLsbD]
  by_cases hlt : j < w.bits
  · by_cases hlow : w.bits - 1 - j < 8
    · have hout : r.getLsbD (8 + j) = false := hr _ (by omega)
      simp [rev_getLsbD, hlt, hlow, hout]
    · have hflip : w.bits - 1 - j - 8 < w.bits := by omega
      have hback : w.bits - 1 - (w.bits - 1 - j - 8) = j + 8 := by omega
      have hflip64 : w.bits - 1 - j < 64 := by omega
      have hbit : (rev w (r >>> 8 <<< 8)).getLsbD (w.bits - 1 - j - 8) = r.getLsbD (8 + j) := by
        have hj8 : j + 8 < 64 := by omega
        rw [rev_getLsbD, if_pos hflip, hback]
        simp [hj8]
      rw [rev_getLsbD, if_pos hlt, BitVec.getLsbD_shiftLeft, hbit]
      simp [hflip64, hlow]
  · simp [hlt]

/-- Of a reversed in-range register with its low byte taken out, the top byte's places are 0. -/
theorem low_byte_cleared {w : Width} {r : Word} (hr : inRange w r = true) (j : Nat) (hj : w.bits - 8 ≤ j) :
    (rev w (r >>> 8 <<< 8)).getLsbD j = false := by
  rw [inRange_iff_getLsbD] at hr
  rw [rev_getLsbD]
  by_cases hlt : j < w.bits
  · have hlow : w.bits - 1 - j < 8 := by omega
    simp [hlt, hlow]
  · have hout : r.getLsbD (8 + (j - 8)) = false := hr _ (by omega)
    simp [hlt, hout]

/-- The byte of a message at the bottom of the register meets its low byte alone: the two together are step_R's index. -/
theorem xor_byte_split_reflected (r : Word) (b : Byte) :
    r ^^^ b.setWidth 64 = (r >>> 8 <<< 8) ^^^ ((r ^^^ b.setWidth 64).setWidth 8).setWidth 64 := by
  apply BitVec.eq_of_getLsbD_eq
  intro j hj
  by_cases h8 : j < 8
  · simp [hj, h8]
  · have hback : 8 + (j - 8) = j := by omega
    simp [hj, h8, hback]

/-- step_R is polynomial division of the reversed register (R125, R161). -/
theorem stepReflected_eq_division {m : Model} {r : Word} (b : Byte) (ht : m.table = buildTable m.width m.poly true)
    (hp : m.poly &&& mask m.width = m.poly) (hr : inRange m.width r = true) :
    stepReflected m r b =
      rev m.width (divRounds m.width m.poly 8 (rev m.width (r ^^^ b.setWidth 64))) &&& mask m.width := by
  have halign : ∀ idx, rev m.width idx = alignIndex m.width true idx := fun _ => rfl
  rw [xor_byte_split_reflected, rev_xor, divRounds_split _ _ _ _ (low_byte_cleared hr), rev_xor, xor_and_mask,
    rev_shift_byte hr, halign (BitVec.setWidth 64 _), stepReflected, ht, entry_buildTable, tableEntry_eq, hp, xor_and_mask]
  simp [rev_and_mask]

/-- One table-driven step, in the variant REFIN selects, is one step of the bit-serial division (R162). -/
theorem updateByte_eq_divisionByte {m : Model} {r : Word} (b : Byte) (ht : m.table = buildTable m.width m.poly m.refin)
    (hp : m.poly &&& mask m.width = m.poly) (hr : inRange m.width r = true) : updateByte m r b = divisionByte m r b := by
  unfold updateByte divisionByte
  split
  · rename_i hrefin
    exact stepReflected_eq_division b (hrefin ▸ ht) hp hr
  · rename_i hrefin
    exact stepNormal_eq_division b (by simpa [hrefin] using ht) hp hr

end Sys2Proof.Machine

/-! ## The commands of the table generator -/

namespace Sys2Proof.Machine

open Sys2Proof

/-! ### Handles of user slots -/

/-- A handle that fails one of R95's three checks names no user slot. -/
theorem userSlot_of_not_named {hw : HwConfig} {h : BitVec 8}
    (hn : ¬(handleIsCatalog h = false ∧ handleIsVoid h = false ∧ (handleSlot h).toNat < hw.nUser)) :
    userSlot hw h = .error .badHandle := by
  cases hu : userSlot hw h with
  | error c => rw [userSlot_error hw h c hu]
  | ok k =>
    obtain ⟨hcat, hvoid, -, hk⟩ := (userSlot_eq_ok hw h k).1 hu
    exact absurd ⟨hcat, hvoid, hk⟩ hn

theorem userSlot_of_named {hw : HwConfig} {h : BitVec 8}
    (hn : handleIsCatalog h = false ∧ handleIsVoid h = false ∧ (handleSlot h).toNat < hw.nUser) :
    userSlot hw h = .ok (handleSlot h) :=
  (userSlot_eq_ok hw h _).2 ⟨hn.1, hn.2.1, rfl, hn.2.2⟩

@[simp] theorem handleSlot_userHandle (k : BitVec 6) : handleSlot (userHandle k) = k := by
  apply BitVec.eq_of_getLsbD_eq
  intro i hi
  have h8 : i < 8 := by omega
  simp [handleSlot, userHandle, hi, h8]

/-- The handle `u<k>` of an existing slot names that slot (R94, R101). -/
theorem userSlot_userHandle {hw : HwConfig} {k : BitVec 6} (hk : k.toNat < hw.nUser) :
    userSlot hw (userHandle k) = .ok k := by
  have hcat : handleIsCatalog (userHandle k) = false := by simp [handleIsCatalog, userHandle]
  have hvoid : handleIsVoid (userHandle k) = false := by simp [handleIsVoid, userHandle]
  exact (userSlot_eq_ok _ _ _).2 ⟨hcat, hvoid, (handleSlot_userHandle k).symm, by simpa using hk⟩

/-! ### CFG and RELEASE by the slot their handle names -/

section

variable {h : BitVec 8} {k : BitVec 6} {m : Model} {s : State}

theorem exec_cfg_badHandle {c : Code} (hu : userSlot s.hw h = .error c) :
    exec (.cfg h) s = raise c (buildIfDue s) := by
  simp [exec, execCfg, hu]

theorem exec_cfg_slotInUse (hu : userSlot s.hw h = .ok k) (hs : slotAt s k = some m) :
    exec (.cfg h) s = raise .slotInUse (buildIfDue s) := by
  simp [exec, execCfg, hu, hs]

theorem exec_cfg_emptySlot (hu : userSlot s.hw h = .ok k) (hs : slotAt s k = none) :
    exec (.cfg h) s = configureSlot k (buildIfDue s) := by
  simp [exec, execCfg, hu, hs]

theorem exec_release_badHandle {c : Code} (hu : userSlot s.hw h = .error c) :
    exec (.release h) s = raise c (buildIfDue s) := by
  simp [exec, execRelease, hu]

theorem exec_release_slotEmpty (hu : userSlot s.hw h = .ok k) (hs : slotAt s k = none) :
    exec (.release h) s = raise .slotEmpty (buildIfDue s) := by
  simp [exec, execRelease, hu, hs]

theorem exec_release_validSlot (hu : userSlot s.hw h = .ok k) (hs : slotAt s k = some m) :
    exec (.release h) s = finish .ok (setSlot k none (buildIfDue s)) := by
  simp [exec, execRelease, hu, hs]

end

/-! ### CFG after its handle check -/

/-- A number names a width exactly when it is that width's number of bits (R7, R131). -/
theorem widthOf_eq_some (n : BitVec 8) (w : Width) : widthOf n = some w ↔ n.toNat = w.bits := by
  constructor
  · intro h
    unfold widthOf at h
    split at h <;> cases h <;> assumption
  · intro h
    rw [show n = BitVec.ofNat 8 w.bits by rw [← h, BitVec.ofNat_toNat, BitVec.setWidth_eq], widthOf_bits]

theorem cfgWidth_eq_some (a : ArgRegs) (w : Width) :
    cfgWidth a = some w ↔ (a.argCfg.extractLsb' 0 8).toNat = w.bits :=
  widthOf_eq_some _ w

theorem cfgWidth_eq_none {a : ArgRegs} (h : ∀ w : Width, (a.argCfg.extractLsb' 0 8).toNat ≠ w.bits) :
    cfgWidth a = none :=
  Option.eq_none_iff_forall_ne_some.2 fun w e => h w ((cfgWidth_eq_some a w).1 e)

section

variable {k : BitVec 6} {m : Model} {s : State}

theorem configureSlot_nameRange (hn : s.hw.nameMax < s.pend.args.nameLen.toNat) :
    configureSlot k s = raise .nameRange s :=
  if_pos hn

theorem configureSlot_invalidParameter (hn : s.pend.args.nameLen.toNat ≤ s.hw.nameMax)
    (hw : cfgWidth s.pend.args = none) : configureSlot k s = raise .invalidParameter s := by
  rw [configureSlot, if_neg (Nat.not_lt.2 hn), hw]

theorem configureSlot_commits {w : Width} (hn : s.pend.args.nameLen.toNat ≤ s.hw.nameMax)
    (hw : cfgWidth s.pend.args = some w) : configureSlot k s = commitModel k (construct (cfgParams w s)) s := by
  rw [configureSlot, if_neg (Nat.not_lt.2 hn), hw]

/-- A model that passes its self-check, when VERIFY = 1 asks for one, is committed; RESULT is written only then (R132). -/
theorem commitModel_passes (hv : cfgVerify s.pend.args = true → selfCheck m = some m.check) :
    commitModel k m s =
      finishWith (if cfgVerify s.pend.args = true then m.check else s.result) .ok (setSlot k (some m) s) := by
  unfold commitModel
  split
  · rename_i hverify
    simp [hv hverify]
  · rfl

theorem commitModel_regRange (hv : cfgVerify s.pend.args = true) (hc : selfCheck m = none) :
    commitModel k m s = raise .regRange s := by
  simp [commitModel, hv, hc]

theorem commitModel_checkMismatch {c : Word} (hv : cfgVerify s.pend.args = true) (hc : selfCheck m = some c)
    (hne : c ≠ m.check) : commitModel k m s = finishWith c .checkMismatch s := by
  simp [commitModel, hv, hc, hne]

end

/-- CFG to an empty slot, with a name that fits and a width in W, constructs the model of its operands (R130). -/
theorem exec_cfg_commits {h : BitVec 8} {k : BitVec 6} {w : Width} {s : State} (hu : userSlot s.hw h = .ok k)
    (hs : slotAt s k = none) (hn : s.pend.args.nameLen.toNat ≤ s.hw.nameMax)
    (hw : (s.pend.args.argCfg.extractLsb' 0 8).toNat = w.bits) :
    exec (.cfg h) s = commitModel k (construct (cfgParams w s)) (buildIfDue s) := by
  have hwidth : cfgWidth (buildIfDue s).pend.args = some w := (cfgWidth_eq_some _ w).2 (by simpa using hw)
  rw [exec_cfg_emptySlot hu hs, configureSlot_commits (by simpa using hn) hwidth, cfgParams_buildIfDue]

/-! ### PARAMRD's fields -/

/-- The selectors from 0x80 on read the name's bytes, 0 at and past NAME_LEN (R138). -/
theorem paramField_nameByte (m : Model) {sel : BitVec 8} {j : Nat} (h : sel.toNat = 0x80 + j) :
    paramField m sel = ((m.name[j]?).getD 0).setWidth 64 := by
  rw [paramField, h, Nat.add_comm]
  exact congrArg (fun n => ((m.name[n]?).getD 0).setWidth 64) (Nat.add_sub_cancel j 0x80)

/-- Selector 3 reads REFIN and REFOUT in bits 0 and 1 (R138). -/
theorem paramField_flags (m : Model) :
    (paramField m 0x03).getLsbD 0 = m.refin ∧ (paramField m 0x03).getLsbD 1 = m.refout ∧ paramField m 0x03 >>> 2 = 0 := by
  have hfield : paramField m 0x03 =
      (BitVec.ofBool m.refin).setWidth 64 ||| ((BitVec.ofBool m.refout).setWidth 64 <<< 1) := rfl
  rw [hfield]
  cases m.refin <;> cases m.refout <;> decide

/-! ### What a completion and a CMD write do to a valid slot -/

@[simp] theorem writeCmd_slots (c : Cmd) (s : State) : (writeCmd c s).slots = s.slots := by
  cases h : s.busy <;> simp [writeCmd, h]

/-- A completion leaves a valid slot as it is, unless it is the RELEASE of that slot, which frees it: CFG fills only an
empty slot (R130, R133, R134). -/
theorem Completion.slotAt_of_valid {i : Instr} {s t : State} (hc : Completion i s (.next t)) {k : BitVec 6} {m : Model}
    (hs : Machine.slotAt s k = some m) :
    Machine.slotAt t k = some m ∨ (Machine.slotAt t k = none ∧ ∃ h, i = .release h ∧ k = handleSlot h) := by
  cases hc with
  | illegal | error | result | done => exact .inl (by simpa [Machine.slotAt] using hs)
  | filled h k' w hi hk he =>
    have hne : k ≠ k' := by
      rintro rfl
      simp [hs] at he
    exact .inl ((slotAt_setSlot_other k' k _ _ hne).trans (by rw [slotAt_buildIfDue, hs]))
  | freed h k' m' hi hk =>
    by_cases e : k = k'
    · subst e
      exact .inr ⟨slotAt_setSlot_same k none _, h, hi, (userSlot_ok hk).1⟩
    · exact .inl ((slotAt_setSlot_other k' k _ _ e).trans (by rw [slotAt_buildIfDue, hs]))

/-- The same of the completion of any pending word: an illegal one touches no slot (R93, R98). -/
theorem slotAt_complete_of_valid {s t : State} (ht : complete s = .next t) {k : BitVec 6} {m : Model}
    (hs : slotAt s k = some m) :
    slotAt t k = some m ∨ (slotAt t k = none ∧ ∃ h, decode s.pend.cmd = .ok (.release h) ∧ k = handleSlot h) := by
  rcases complete_cases s with ⟨e, -, hr⟩ | ⟨i, hd, -, hc⟩
  · cases hr.symm.trans ht
    exact .inl hs
  · have hcompleted : Completion i s (.next t) := ht ▸ hc
    exact (hcompleted.slotAt_of_valid hs).imp_right fun ⟨hnone, h, hi, hk⟩ => ⟨hnone, h, hi ▸ hd, hk⟩

end Sys2Proof.Machine

section

open Sys2Proof Sys2Proof.Machine

/-- Settles O32: an entry of a built table is R125's value for its index, in range; that of index 0 is 0 by linearity. -/
theorem tblrdReturnsTheEntry : Obligations.TblrdReturnsTheEntry := by
  intro s h i m hm
  refine ⟨withModel_of_names h s m _ hm, fun ht => ?_⟩
  have hentry : m.table[i.toNat]'i.isLt = tableEntry m.width m.poly m.refin (i.setWidth 64) := by
    rw [← entry_buildTable, ← ht, Table.entry]
  rw [hentry]
  refine ⟨rfl, (inRange_iff_and_not_mask _ _).1 (inRange_tableEntry _ _ _ _), ?_⟩
  rintro rfl
  exact tableEntry_zero _ _ _

/-- Settles O33: an assigned selector is legal, and the field is read selector by selector. -/
theorem paramrdReturnsTheField : Obligations.ParamrdReturnsTheField := by
  intro s h sel m hm hsel
  have hlegal : selectorLegal sel = true := by simpa [selectorLegal] using hsel
  refine ⟨paramField m sel, ?_, ?_, ?_, ?_, ?_, ?_, ?_, ?_, fun j b hj hb => ?_, fun j hj hlen => ?_⟩
  · exact (if_pos hlegal).trans (withModel_of_names h s m _ hm)
  · rintro rfl; rfl
  · rintro rfl; rfl
  · rintro rfl; rfl
  · rintro rfl
    exact paramField_flags m
  · rintro rfl; rfl
  · rintro rfl; rfl
  · rintro rfl; rfl
  · simp [paramField_nameByte m hj, hb]
  · simp [paramField_nameByte m hj, List.getElem?_eq_none hlen]

/-- Settles O37: past its checks CFG commits the model constructed from its operands. -/
theorem cfgCommitsTheModel : Obligations.CfgCommitsTheModel := by
  intro s h w hcat hvoid hk hs hn hw hv
  have hexec : exec (.cfg h) s = finishWith (if cfgVerify s.pend.args = true then s.pend.args.argCheck else s.result) .ok
      (setSlot (handleSlot h) (some (construct (cfgParams w s))) (buildIfDue s)) := by
    rw [exec_cfg_commits (userSlot_of_named ⟨hcat, hvoid, hk⟩) hs hn hw,
      commitModel_passes (by rw [buildIfDue_pend]; exact hv)]
    simp [cfgParams]
  refine ⟨_, construct (cfgParams w s), hexec, slotAt_setSlot_same _ _ _, (nameMatches_iff _ _).2 rfl, rfl, rfl, rfl, rfl,
    rfl, rfl, rfl, rfl, fun k hne => ?_, rfl, rfl⟩
  exact (slotAt_setSlot_other _ k _ _ hne).trans (slotAt_buildIfDue s k)

/-- Settles O38: each failure is the first of CFG's checks that does not pass. -/
theorem cfgFailsWithoutACommit : Obligations.CfgFailsWithoutACommit := by
  intro s h
  refine ⟨fun hn => ?_, fun hn ⟨m, hs⟩ => ?_, fun hn hs hfit => ?_, fun hn hs hfit hw => ?_,
    fun w hn hs hfit hw hv => ?_⟩
  · exact exec_cfg_badHandle (userSlot_of_not_named hn)
  · exact exec_cfg_slotInUse (userSlot_of_named hn) hs
  · exact (exec_cfg_emptySlot (userSlot_of_named hn) hs).trans
      (configureSlot_nameRange (by simpa using hfit))
  · exact (exec_cfg_emptySlot (userSlot_of_named hn) hs).trans
      (configureSlot_invalidParameter (by simpa using hfit) (by simpa using cfgWidth_eq_none hw))
  · have hexec := exec_cfg_commits (userSlot_of_named hn) hs hfit hw
    have hverify : cfgVerify (buildIfDue s).pend.args = true := by rw [buildIfDue_pend]; exact hv
    exact ⟨fun hc => hexec.trans (commitModel_regRange hverify hc),
      fun c hc hne => hexec.trans (commitModel_checkMismatch hverify hc hne)⟩

/-- Settles O39: by what the slot of the handle holds. -/
theorem releaseFreesTheSlot : Obligations.ReleaseFreesTheSlot := by
  intro s h
  refine ⟨fun hn ⟨m, hs⟩ => ?_, fun hn hs => exec_release_slotEmpty (userSlot_of_named hn) hs,
    fun hn => exec_release_badHandle (userSlot_of_not_named hn)⟩
  refine ⟨_, exec_release_validSlot (userSlot_of_named hn) hs, slotAt_setSlot_same _ _ _, fun k hne => ?_, rfl⟩
  exact (slotAt_setSlot_other _ k _ _ hne).trans (slotAt_buildIfDue s k)

/-- Settles O40: bit by bit; the examples compute. -/
theorem reversalIsAnInvolution : Obligations.ReversalIsAnInvolution := by
  refine ⟨fun w v j => ⟨fun hj => ?_, fun hj => ?_⟩, rev_rev, ?_, ?_, ?_, ?_, ?_, ?_⟩
  · rw [rev_getLsbD, if_pos hj]
  · rw [rev_getLsbD, if_neg (Nat.not_lt.2 hj)]
  all_goals decide +kernel

/-- Settles O41: the aligned index is in range, so masking every round gives what masking at the end gives. -/
theorem maskedFormBuildsTheSameTable : Obligations.MaskedFormBuildsTheSameTable := by
  intro w poly refin i
  have hstart := (inRange_iff w _).1 (inRange_alignIndex w refin i)
  rw [entry_buildTable, tableEntry_eq, maskedEntry_eq, maskedRounds_and_mask (and_mask_and_mask w poly), hstart]

/-- Settles O42: linearity gives (a) and (b); the index byte 1, reversed when REFIN = 1, gives the polynomial; by the
polynomial 0 the index is shifted out. -/
theorem tableProperties : Obligations.TableProperties := by
  refine ⟨fun w poly refin => ⟨?_, fun a b => ?_, fun hp i => ?_⟩, fun w poly => ?_, fun w poly => ?_, ?_, ?_, ?_⟩
  · rw [entry_buildTable]
    exact tableEntry_zero w poly refin
  · rw [entry_buildTable, entry_buildTable, entry_buildTable, BitVec.setWidth_xor, tableEntry_xor]
  · rw [entry_buildTable, tableEntry_eq, hp, divRounds_zero_poly, alignIndex_byte, byte_at_top_shift]
    cases refin with
    | false => rfl
    | true => exact rev_zero w
  · have halign : alignIndex w false ((0x01 : BitVec 8).setWidth 64) = 1#64 <<< (w.bits - 8) := alignIndex_byte w false 1
    rw [entry_buildTable, tableEntry_eq, halign, divRounds_one_at_top, and_mask_and_mask]
    rfl
  · have halign : alignIndex w true ((0x80 : BitVec 8).setWidth 64) = 1#64 <<< (w.bits - 8) := alignIndex_byte w true 0x80
    rw [entry_buildTable, tableEntry_eq, halign, divRounds_one_at_top, and_mask_and_mask]
    rfl
  all_goals
    rw [entry_buildTable]
    decide +kernel

/-- Settles O44: byte by byte, the register staying in range. -/
theorem tableDrivenUpdateIsPolynomialDivision : Obligations.TableDrivenUpdateIsPolynomialDivision := by
  intro m r bytes ht hp hr
  rw [← inRange_iff_and_not_mask] at hr
  induction bytes generalizing r with
  | nil => rfl
  | cons b bytes ih =>
    rw [List.foldl_cons, ← updateByte_eq_divisionByte b ht hp hr]
    exact ih _ (inRange_updateByte m r b)

/-- Settles O49: by the cases of a step; of the completions only the slot's own RELEASE frees it. -/
theorem validSlotsAreImmutable : Obligations.ValidSlotsAreImmutable := by
  refine ⟨fun s t k m hs h => ?_, fun s k m hk hs => exec_cfg_slotInUse (userSlot_userHandle hk) hs⟩
  cases step_cases h with
  | reset hr => exact .inr ⟨slotAt_assertReset _ k, .inl hr⟩
  | access | statusWrite | idle => exact .inl hs
  | cmdWrite c hc =>
    exact .inl ((slotAt_congr (writeCmd_slots c (popped s)) k).trans hs)
  | completed he hb _ hc =>
    refine (slotAt_complete_of_valid hc hs).imp_right fun ⟨hnone, hrelease⟩ => ?_
    exact ⟨hnone, .inr ⟨hb, he, hrelease⟩⟩

end

/-! ## The update engine: its functions and the commands on them -/

namespace Sys2Proof.Machine

open Sys2Proof

/-! ### The index and the range of a step -/

theorem topByte_eq_extractLsb' (w : Width) (r : Word) : topByte w r = r.extractLsb' (w.bits - 8) 8 :=
  BitVec.setWidth_ushiftRight_eq_extractLsb

/-- Above its top byte an in-range register holds nothing, so step_N's index is not cut (R164). -/
theorem topByte_setWidth {w : Width} {r : Word} (hr : inRange w r = true) :
    (topByte w r).setWidth 64 = r >>> (w.bits - 8) := by
  have h8 := Width.eight_le_bits w
  rw [inRange_iff_getLsbD] at hr
  apply BitVec.eq_of_getLsbD_eq
  intro i hi
  by_cases hlow : i < 8
  · simp [topByte, hi, hlow]
  · have hout : r.getLsbD (w.bits - 8 + i) = false := hr _ (by omega)
    simp [hout, BitVec.getLsbD_of_ge _ _ (Nat.not_lt.1 hlow)]

/-- step_R's table index (R161, R164). -/
theorem stepReflected_index (r : Word) (b : Byte) :
    (r ^^^ b.setWidth 64).setWidth 8 = r.extractLsb' 0 8 ^^^ b := by
  simp [BitVec.setWidth_xor, BitVec.setWidth_eq_extractLsb' (x := r) (w := 8) (by omega)]

theorem inRange_stepNormal (m : Model) (r : Word) (b : Byte) : inRange m.width (stepNormal m r b) = true :=
  inRange_and_mask _ _

theorem inRange_stepReflected (m : Model) (r : Word) (b : Byte) : inRange m.width (stepReflected m r b) = true :=
  inRange_and_mask _ _

/-- In 8 bits a shift up by a byte leaves nothing of the register (R164). -/
theorem shiftLeft_byte_and_mask_w8 (r : Word) : r <<< 8 &&& mask .w8 = 0#64 := by
  apply BitVec.eq_of_getLsbD_eq
  intro i _
  rw [BitVec.getLsbD_and, mask_getLsbD, BitVec.getLsbD_shiftLeft]
  by_cases hlow : i < 8 <;> simp [hlow, Width.bits]

/-- An 8-bit register has nothing above its one byte (R164). -/
theorem ushiftRight_byte_of_inRange_w8 {r : Word} (hr : inRange .w8 r = true) : r >>> 8 = 0#64 := by
  rw [inRange_iff_getLsbD] at hr
  apply BitVec.eq_of_getLsbD_eq
  intro i _
  rw [BitVec.getLsbD_ushiftRight, hr _ (Nat.le_add_right 8 i), BitVec.getLsbD_zero]

/-! ### Finalisation and the self-check -/

/-- The register's bits at and above w do not reach the checksum (R172). -/
theorem finalReg_and_mask (m : Model) (r : Word) : finalReg m (r &&& mask m.width) = finalReg m r := by
  unfold finalReg
  split
  · rw [rev_and_mask, xor_and_mask, and_mask_and_mask, ← xor_and_mask]
  · rw [xor_and_mask, and_mask_and_mask, ← xor_and_mask]

theorem selfCheck_eq_some {m : Model} (h : inRange m.width (initReg m) = true) :
    selfCheck m = some (finalReg m (updateBytes m (initReg m) checkString)) := if_pos h

theorem selfCheck_eq_none {m : Model} (h : ¬inRange m.width (initReg m) = true) : selfCheck m = none := if_neg h

/-- A conforming catalog's entries pass their self-check (R205). -/
theorem conforming_selfCheck {hw : HwConfig} (h : hw.conforming = true) {p : Params} (hp : p ∈ hw.catalog) :
    selfCheck (construct p) = some p.check := by
  simp only [HwConfig.conforming, catalogOk, Bool.and_eq_true] at h
  obtain ⟨-, -, hchecks⟩ := h
  exact beq_iff_eq.1 (List.all_eq_true.1 hchecks p hp)

/-- In READY a catalog handle of a run names its entry's constructed model (R39, R209). -/
theorem Inv.namesModel_catalog {s : State} (hi : Inv s) {h : BitVec 8} {p : Params} (hr : regstate s.registry = 0b10)
    (hcat : handleIsCatalog h = true) (hp : s.hw.catalog[(handleEntry h).toNat]? = some p) :
    NamesModel s h (construct p) := by
  cases hs : s.registry with
  | uninitialized | building => simp [hs, regstate] at hr
  | ready tables =>
    refine .inl ⟨hcat, p, buildTable p.width p.poly p.refin, tables, hp, hs, ?_, (catalogModel_built p).symm⟩
    rw [hi.tablesBuilt tables hs, catalogTables_getElem?, hp, Option.map_some]

/-! ### UPDATE and CHECK on their model, branch by branch -/

section

variable {m : Model} {s : State}

/-- The addressed range lies in DBUF, by the exact sum (R69). -/
def DataInRange (s : State) : Prop := s.pend.args.dataAddr.toNat + s.pend.args.dataLen.toNat ≤ s.hw.dbufSize

theorem dataInRange_buildIfDue : DataInRange (buildIfDue s) ↔ DataInRange s := by
  simp [DataInRange]

theorem updateModel_dataRange (hd : ¬DataInRange s) : updateModel m s = raise .dataRange s :=
  if_pos (Nat.lt_of_not_le hd)

theorem updateModel_regRange (hd : DataInRange s) (hr : ¬inRange m.width s.pend.args.regIn = true) :
    updateModel m s = raise .regRange s :=
  (if_neg (Nat.not_lt.2 hd)).trans (if_neg hr)

theorem updateModel_folds (hd : DataInRange s) (hr : inRange m.width s.pend.args.regIn = true) :
    updateModel m s = finishWith (updateBytes m s.pend.args.regIn (dataOperand s)) .ok s :=
  (if_neg (Nat.not_lt.2 hd)).trans (if_pos hr)

theorem checkModel_regRange (hc : selfCheck m = none) : checkModel m s = raise .regRange s := by
  simp [checkModel, hc]

theorem checkModel_passes (hc : selfCheck m = some m.check) : checkModel m s = finishWith m.check .ok s := by
  simp [checkModel, hc]

theorem checkModel_mismatch {c : Word} (hc : selfCheck m = some c) (hne : c ≠ m.check) :
    checkModel m s = finishWith c .checkMismatch s := by
  simp [checkModel, hc, hne]

end

/-! ### UPDATE as a command -/

section

variable {h : BitVec 8} {m : Model} {s t : State}

theorem exec_update_dataRange (hm : NamesModel (buildIfDue s) h m) (hd : ¬DataInRange s) :
    exec (.update h) s = raise .dataRange (buildIfDue s) :=
  (withModel_of_names h s m _ hm).trans (updateModel_dataRange (mt dataInRange_buildIfDue.1 hd))

theorem exec_update_regRange (hm : NamesModel (buildIfDue s) h m) (hd : DataInRange s)
    (hr : ¬inRange m.width s.pend.args.regIn = true) : exec (.update h) s = raise .regRange (buildIfDue s) :=
  (withModel_of_names h s m _ hm).trans
    (updateModel_regRange (dataInRange_buildIfDue.2 hd) (by rwa [buildIfDue_pend]))

theorem exec_update_folds (hm : NamesModel (buildIfDue s) h m) (hd : DataInRange s)
    (hr : inRange m.width s.pend.args.regIn = true) :
    exec (.update h) s = finishWith (updateBytes m s.pend.args.regIn (dataOperand s)) .ok (buildIfDue s) := by
  refine (withModel_of_names h s m _ hm).trans ?_
  rw [updateModel_folds (dataInRange_buildIfDue.2 hd) (by rwa [buildIfDue_pend]), buildIfDue_pend,
    dataOperand_buildIfDue]

/-- UPDATE ends with OK only after all its checks have passed, and then RESULT holds the fold (R171). -/
theorem exec_update_ok (ht : exec (.update h) s = .next t) (hok : t.err = .ok) :
    ∃ m, NamesModel (buildIfDue s) h m ∧ DataInRange s ∧ inRange m.width s.pend.args.regIn = true ∧
      t.result = updateBytes m s.pend.args.regIn (dataOperand s) := by
  rcases withModel_cases h s updateModel with ⟨c, ⟨hc, -⟩, e⟩ | ⟨m, hm, -⟩
  · cases e.symm.trans ht
    exact absurd hok hc
  · by_cases hd : DataInRange s
    · by_cases hr : inRange m.width s.pend.args.regIn = true
      · cases (exec_update_folds hm hd hr).symm.trans ht
        exact ⟨m, hm, hd, hr, rfl⟩
      · cases (exec_update_regRange hm hd hr).symm.trans ht
        cases hok
    · cases (exec_update_dataRange hm hd).symm.trans ht
      cases hok

end

/-! ### The same command with other latched operands -/

/-- `s` with the latched argument registers replaced. -/
def withLatched (a : ArgRegs) (s : State) : State := { s with pend := { s.pend with args := a } }

/-- The operands decide nothing about which model a handle names. -/
theorem namesModel_withLatched (a : ArgRegs) (s : State) (h : BitVec 8) (m : Model) :
    NamesModel (buildIfDue (withLatched a s)) h m ↔ NamesModel (buildIfDue s) h m := by
  rw [buildIfDue_eq, buildIfDue_eq]
  rfl

/-- The `n` bytes of DBUF from byte `a` on, as the pending command sees them (R68). -/
def dbufBytes (s : State) (a n : Nat) : List Byte :=
  (List.range n).map fun j => commandByte s (dbufOffset (a + j))

theorem dataOperand_eq_dbufBytes (s : State) :
    dataOperand s = dbufBytes s s.pend.args.dataAddr.toNat s.pend.args.dataLen.toNat := rfl

/-- UPDATE with operands that pass its checks, on the same machine (R171). -/
theorem exec_update_withLatched {a : ArgRegs} {s : State} {h : BitVec 8} {m : Model}
    (hm : NamesModel (buildIfDue s) h m) (hd : a.dataAddr.toNat + a.dataLen.toNat ≤ s.hw.dbufSize)
    (hr : inRange m.width a.regIn = true) :
    ∃ t, exec (.update h) (withLatched a s) = .next t ∧ t.err = .ok ∧
      t.result = updateBytes m a.regIn (dbufBytes s a.dataAddr.toNat a.dataLen.toNat) :=
  ⟨_, exec_update_folds (s := withLatched a s) ((namesModel_withLatched a s h m).2 hm) hd hr, rfl, rfl⟩

/-- A range of bytes is its first part followed by the rest. -/
theorem dbufBytes_add (s : State) (a n₁ n₂ : Nat) :
    dbufBytes s a (n₁ + n₂) = dbufBytes s a n₁ ++ dbufBytes s (a + n₁) n₂ := by
  simp [dbufBytes, List.range_add, Nat.add_assoc]

/-- An update over a message is one over its first part, carried on over the rest (R168). -/
theorem updateBytes_append (m : Model) (r : Word) (bs₁ bs₂ : List Byte) :
    updateBytes m r (bs₁ ++ bs₂) = updateBytes m (updateBytes m r bs₁) bs₂ := List.foldl_append

end Sys2Proof.Machine

section

open Sys2Proof Sys2Proof.Machine

/-- Settles O27: INIT's rule on the named model. -/
theorem initReturnsTheInitialRegister : Obligations.InitReturnsTheInitialRegister :=
  fun s h m hm => withModel_of_names h s m _ hm

/-- Settles O28: both checks pass, and every step of the fold keeps the register in range. -/
theorem updateFoldsTheBytes : Obligations.UpdateFoldsTheBytes := by
  intro s h m hm hd hr
  rw [← inRange_iff_and_not_mask] at hr
  refine ⟨_, exec_update_folds hm hd hr, rfl, ?_, fun hempty => ?_⟩
  · exact (inRange_iff_and_not_mask _ _).1 (inRange_updateBytes m _ _ hr)
  · rw [dataOperand, hempty]
    rfl

/-- Settles O29: the two failing branches of UPDATE, DATA_RANGE first. -/
theorem updateRangeErrors : Obligations.UpdateRangeErrors := by
  intro s h m hm
  refine ⟨fun hd => exec_update_dataRange hm (Nat.not_le.2 hd), fun hd hr => exec_update_regRange hm hd ?_⟩
  rwa [inRange_iff_and_not_mask]

/-- Settles O30: finalisation masks at its end, so no bit of REG_IN at or above w reaches RESULT. -/
theorem finalReturnsTheChecksum : Obligations.FinalReturnsTheChecksum := by
  intro s h m hm
  refine ⟨finalReg m s.pend.args.regIn, ?_, ?_, (finalReg_and_mask m _).symm,
    (inRange_iff_and_not_mask _ _).1 (inRange_finalReg m _)⟩
  · rw [← buildIfDue_pend s]
    exact withModel_of_names h s m _ hm
  · simp [finalReg]

/-- Settles O31: by whether the initial register is in range, then by whether the value equals CHECK. -/
theorem checkComparesTheSelfCheck : Obligations.CheckComparesTheSelfCheck := by
  intro s h m hm
  have hexec : exec (.check h) s = checkModel m (buildIfDue s) := withModel_of_names h s m _ hm
  simp only [hexec, ne_eq, ← inRange_iff_and_not_mask]
  refine ⟨fun hr => checkModel_regRange (selfCheck_eq_none hr), fun c hr hc => ?_⟩
  have hself : selfCheck m = some c := hc ▸ selfCheck_eq_some hr
  refine ⟨fun heq => ?_, fun hne => checkModel_mismatch hself hne⟩
  subst heq
  exact checkModel_passes hself

/-- Settles O43: an in-range register has nothing above its top byte; in 8 bits the shifted register vanishes. -/
theorem stepIndexAndRange : Obligations.StepIndexAndRange := by
  intro m r b hr
  rw [← inRange_iff_and_not_mask] at hr
  have hnormal : stepNormal m r b =
      ((r <<< 8) ^^^ Table.entry m.table (r.extractLsb' (m.width.bits - 8) 8 ^^^ b)) &&& mask m.width := by
    rw [stepNormal, stepNormal_index, topByte_eq_extractLsb']
  have hreflected : stepReflected m r b =
      ((r >>> 8) ^^^ Table.entry m.table (r.extractLsb' 0 8 ^^^ b)) &&& mask m.width := by
    rw [stepReflected, stepReflected_index]
  refine ⟨hnormal, hreflected, ?_, (inRange_iff_and_not_mask _ _).1 (inRange_stepNormal m r b),
    (inRange_iff_and_not_mask _ _).1 (inRange_stepReflected m r b), fun hw => ⟨?_, ?_⟩⟩
  · rw [BitVec.setWidth_xor, ← topByte_eq_extractLsb', topByte_setWidth hr]
  · rw [hnormal, hw, xor_and_mask, shiftLeft_byte_and_mask_w8, BitVec.zero_xor]
    rfl
  · rw [hreflected, ushiftRight_byte_of_inRange_w8 (hw ▸ hr), BitVec.zero_xor]

/-- Settles O45: the byte range splits at n1, DATA_ADDR + n1 does not wrap on a conforming instance, and the first
call's RESULT is in range. -/
theorem chunkedUpdatesEqualOneUpdate : Obligations.ChunkedUpdatesEqualOneUpdate := by
  intro s h n1 n2 t hc hlen ht hok
  obtain ⟨m, hm, hd, hr, hresult⟩ := exec_update_ok ht hok
  unfold DataInRange at hd
  have hnowrap : (s.pend.args.dataAddr + n1).toNat = s.pend.args.dataAddr.toNat + n1.toNat := by
    obtain ⟨-, -, -, hdbuf⟩ := conforming_fits hc
    rw [BitVec.toNat_add, Nat.mod_eq_of_lt (by omega)]
  obtain ⟨t1, ht1, hok1, hresult1⟩ := exec_update_withLatched (a := { s.pend.args with dataLen := n1 }) hm
    (by dsimp only; omega) hr
  have hr1 : inRange m.width t1.result = true := hresult1 ▸ inRange_updateBytes m _ _ hr
  obtain ⟨t2, ht2, hok2, hresult2⟩ := exec_update_withLatched
    (a := { s.pend.args with regIn := t1.result, dataAddr := s.pend.args.dataAddr + n1, dataLen := n2 }) hm
    (by dsimp only; omega) hr1
  refine ⟨t1, t2, ht1, hok1, ht2, hok2, ?_⟩
  calc t2.result = updateBytes m t1.result (dbufBytes s (s.pend.args.dataAddr.toNat + n1.toNat) n2.toNat) := by
        rw [hresult2, hnowrap]
    _ = t.result := by
        rw [hresult1, ← updateBytes_append, ← dbufBytes_add, hlen, hresult, dataOperand_eq_dbufBytes]

/-- Settles O46: in READY the handle names the constructed entry, which R205 wants to pass its self-check. -/
theorem everyCatalogEntryPassesCheck : Obligations.EveryCatalogEntryPassesCheck := by
  intro s h p hi hr hcat hp
  have hbuilt : buildIfDue s = s := buildIfDue_of_not_building s fun e => by simp [e, regstate] at hr
  have hexec := withModel_of_names h s (construct p) checkModel (hbuilt.symm ▸ hi.namesModel_catalog hr hcat hp)
  rw [hbuilt] at hexec
  exact hexec.trans (checkModel_passes (conforming_selfCheck hi.conforming (List.mem_of_getElem? hp)))

end

/-! ## The registry: its commands, and what a step does to REGSTATE -/

namespace Sys2Proof.Machine

open Sys2Proof

/-! ### The ends of a lookup -/

section

variable {s : State} {search : List Byte → Option Nat}

theorem lookupBy_nameRange (hn : s.hw.nameMax < s.pend.args.nameLen.toNat) :
    lookupBy search s = raise .nameRange s := if_pos hn

theorem lookupBy_finds {n : Nat} (hn : s.pend.args.nameLen.toNat ≤ s.hw.nameMax)
    (hf : search (nameOperand s) = some n) : lookupBy search s = finishWith (foundResult n) .ok s := by
  rw [lookupBy, if_neg (Nat.not_lt.2 hn), hf, finishLookup]

/-- NotFound is RESULT 0 with OK (R232). -/
theorem lookupBy_findsNone (hn : s.pend.args.nameLen.toNat ≤ s.hw.nameMax) (hf : search (nameOperand s) = none) :
    lookupBy search s = finishWith 0 .ok s := by
  rw [lookupBy, if_neg (Nat.not_lt.2 hn), hf, finishLookup]

end

/-! ### The search of the catalog -/

/-- The search of R212 stops at an entry that matches, when no lower one does. -/
theorem catalogMatch_eq_some {catalog : List Params} {q : List Byte} {i : Nat} {p : Params}
    (hp : catalog[i]? = some p) (hq : p.name = q)
    (hlow : ∀ (j : Nat) (p' : Params), j < i → catalog[j]? = some p' → p'.name ≠ q) :
    catalogMatch catalog q = some i := by
  obtain ⟨hi, rfl⟩ := List.getElem?_eq_some_iff.1 hp
  refine List.findIdx?_eq_some_iff_getElem.2 ⟨hi, beq_iff_eq.2 hq, fun j hj => ?_⟩
  have hne := hlow j _ hj (List.getElem?_eq_getElem (hj.trans hi))
  simpa using hne

theorem catalogMatch_eq_none {catalog : List Params} {q : List Byte} (h : ∀ p ∈ catalog, p.name ≠ q) :
    catalogMatch catalog q = none :=
  List.findIdx?_eq_none_iff.2 fun p hp => beq_eq_false_iff_ne.2 (h p hp)

/-! ### The search of the slots -/

/-- LOOKUP_LIST searches slot `k`, and its model is named `q`: the slot exists, SLOT_MASK selects it, it is valid
(R215). -/
def ListsSlot (s : State) (q : List Byte) (k : BitVec 6) : Prop :=
  k.toNat < s.hw.nUser ∧ s.pend.args.slotMask.getLsbD k.toNat = true ∧ ∃ m, slotAt s k = some m ∧ m.name = q

theorem slotMatches_toNat (s : State) (q : List Byte) (k : BitVec 6) :
    slotMatches s q k.toNat = true ↔
      s.pend.args.slotMask.getLsbD k.toNat = true ∧ ∃ m, slotAt s k = some m ∧ m.name = q := by
  have hk : s.slots[k.toNat]? = some (slotAt s k) := Vector.getElem?_eq_getElem k.isLt
  rw [slotMatches, hk, Bool.and_eq_true]
  cases slotAt s k <;> simp

/-- A number past the slot file matches nothing, whatever N_USER is (log 24). -/
theorem lt_of_slotMatches {s : State} {q : List Byte} {n : Nat} (h : slotMatches s q n = true) : n < 64 := by
  by_contra hn
  have hnone : s.slots[n]? = none := Vector.getElem?_eq_none (Nat.not_lt.1 hn)
  simp [slotMatches, hnone] at h

/-- The numbers the search accepts below N_USER are those of the slots listed. -/
theorem exists_listsSlot {s : State} {q : List Byte} {n : Nat} (hn : n < s.hw.nUser)
    (h : slotMatches s q n = true) : ∃ k : BitVec 6, k.toNat = n ∧ ListsSlot s q k := by
  have hk : (BitVec.ofNat 6 n).toNat = n := Nat.mod_eq_of_lt (lt_of_slotMatches h)
  refine ⟨BitVec.ofNat 6 n, hk, hk.symm ▸ hn, ?_⟩
  rwa [← slotMatches_toNat, hk]

/-- The search of R216 stops at the lowest slot listed. -/
theorem slotMatch_eq_some {s : State} {q : List Byte} {k : BitVec 6} (hk : ListsSlot s q k)
    (hlow : ∀ k', k' < k → ¬ListsSlot s q k') : slotMatch s q = some k.toNat := by
  refine List.find?_range_eq_some.2 ⟨(slotMatches_toNat s q k).2 hk.2, List.mem_range.2 hk.1, fun j hj => ?_⟩
  by_contra hm
  obtain ⟨k', rfl, hk'⟩ := exists_listsSlot (hj.trans hk.1) (by simpa using hm)
  exact hlow k' hj hk'

theorem slotMatch_eq_none {s : State} {q : List Byte} (h : ∀ k, ¬ListsSlot s q k) : slotMatch s q = none := by
  refine List.find?_range_eq_none.2 fun n hn => ?_
  by_contra hm
  obtain ⟨k, -, hk⟩ := exists_listsSlot hn (by simpa using hm)
  exact h k hk

theorem foundResult_slot (k : BitVec 6) : foundResult k.toNat = 0x100 ||| k.setWidth 64 := by
  rw [foundResult, BitVec.ofNat_toNat]

/-! ### REGSTATE by its numbers (R27) -/

theorem regstate_eq_uninitialized (r : Registry) : regstate r = 0b00 ↔ r = .uninitialized := by
  cases r <;> simp [regstate]

theorem regstate_eq_building (r : Registry) : regstate r = 0b01 ↔ r = .building := by
  cases r <;> simp [regstate]

theorem regstate_eq_ready (r : Registry) : regstate r = 0b10 ↔ ∃ tables, r = .ready tables := by
  cases r <;> simp [regstate]

/-! ### The registry after a step -/

@[simp] theorem writeCmd_hw (c : Cmd) (s : State) : (writeCmd c s).hw = s.hw := by
  cases h : s.busy <;> simp [writeCmd, h]

theorem triggersBuild_iff (c : Cmd) : triggersBuild c = true ↔ c = 0x00000006 ∨ c = 0x0000000B := by
  simp [triggersBuild]

/-- The completion of a legal word runs the build when due; that of an illegal one, which never made it due, leaves the
registry (R96, R208, R209). -/
theorem complete_registry {s t : State} (h : complete s = .next t) :
    t.registry = builtRegistry s.hw s.registry ∨ (t.registry = s.registry ∧ triggersBuild s.pend.cmd = false) := by
  rcases complete_cases s with ⟨e, hd, hr⟩ | ⟨i, hd, -, hc⟩
  · cases hr.symm.trans h
    refine .inr ⟨rfl, Bool.eq_false_iff.2 fun ht => ?_⟩
    obtain ⟨i, hi⟩ := decode_of_triggersBuild ht
    cases hd.symm.trans hi
  · refine .inl ((h ▸ hc : Completion i s (.next t)).registry.resolve_left fun hill => ?_)
    simp [decode_wf hd] at hill

/-- A CMD write that is accepted acts on the registry as its acceptance (R36). -/
theorem registry_of_cmdWrite {s t : State} {c : Cmd} (h : step s = .next t) (hc : CmdWriteNext s c)
    (hb : s.busy = false) : t.registry = registryAtAcceptance c s.registry := by
  rw [step_of_cmdWrite hc] at h
  cases h
  rw [writeCmd_of_idle c (s := popped s) hb, accept_registry, popped_registry]

/-- On the ENGINE's turn the build runs when due: BUILDING comes with a pending command, and its word is legal (R96). -/
theorem Inv.registry_of_engineNext {s t : State} (hi : Inv s) (h : Machine.step s = .next t) (he : EngineNext s) :
    t.registry = builtRegistry s.hw s.registry := by
  by_cases hb : s.busy = true
  · rw [step_of_pending he hb] at h
    refine (complete_registry h).elim id fun ⟨hkept, hill⟩ =>
      hkept.trans (builtRegistry_of_ne_building fun hr => ?_).symm
    exact Bool.false_ne_true (hill.symm.trans (hi.buildingBusy hr).2)
  · have hne : s.registry ≠ .building := fun hr => hb (hi.buildingBusy hr).1
    rw [step_of_engineTurn he, engineTurn, popped_busy, if_neg hb] at h
    cases h
    exact (builtRegistry_of_ne_building hne).symm

/-- All a step can do to the registry: RESET empties it, one of the two triggering words makes the build due, a
completion runs it; otherwise it stays (R206, R208). -/
inductive RegistryStep (s t : State) : Prop
  | reset (h : ResetNext s) (ht : t.registry = .uninitialized)
  | accepted (h : CmdWriteNext s 0x00000006 ∨ CmdWriteNext s 0x0000000B) (hb : s.busy = false)
      (hs : s.registry = .uninitialized) (ht : t.registry = .building)
  | built (h : EngineNext s) (hb : s.busy = true) (hs : s.registry = .building)
      (ht : t.registry = .ready (catalogTables s.hw.catalog))
  | kept (ht : t.registry = s.registry)

theorem step_registry {s t : State} (h : step s = .next t) : RegistryStep s t := by
  cases step_cases h with
  | reset hr => exact .reset hr rfl
  | access | statusWrite | idle => exact .kept rfl
  | cmdWrite c hc =>
    cases hb : s.busy with
    | true => exact .kept (by simp [writeCmd_of_busy c (s := popped s) hb])
    | false =>
      have ht := registry_of_cmdWrite h hc hb
      rw [registryAtAcceptance_eq] at ht
      split at ht
      · rename_i hu
        obtain ⟨hs, rfl | rfl⟩ := hu
        · exact .accepted (.inl hc) hb hs ht
        · exact .accepted (.inr hc) hb hs ht
      · exact .kept ht
  | completed he hb _ hcomp =>
    rcases complete_registry hcomp with e | ⟨e, -⟩
    · by_cases hs : s.registry = .building
      · exact .built he hb hs (e.trans (by simp [hs]))
      · exact .kept (e.trans (builtRegistry_of_ne_building hs))
    · exact .kept e

namespace RegistryStep

variable {s t : State}

/-- UNINITIALIZED is left only by the acceptance of a triggering word (R208). -/
theorem of_uninitialized (h : RegistryStep s t) (hs : s.registry = .uninitialized) :
    t.registry = .uninitialized ∨
      (t.registry = .building ∧ s.busy = false ∧ (CmdWriteNext s 0x00000006 ∨ CmdWriteNext s 0x0000000B)) := by
  cases h with
  | reset _ ht => exact .inl ht
  | accepted hc hb _ ht => exact .inr ⟨ht, hb, hc⟩
  | built _ _ hs' => cases hs.symm.trans hs'
  | kept ht => exact .inl (ht.trans hs)

/-- BUILDING is left only by RESET or by a completion (R208). -/
theorem of_building (h : RegistryStep s t) (hs : s.registry = .building) :
    ResetNext s ∨ t.registry = .building ∨
      ((∃ tables, t.registry = .ready tables) ∧ s.busy = true ∧ EngineNext s) := by
  cases h with
  | reset hr => exact .inl hr
  | accepted _ _ hs' => cases hs.symm.trans hs'
  | built he hb _ ht => exact .inr (.inr ⟨⟨_, ht⟩, hb, he⟩)
  | kept ht => exact .inr (.inl (ht.trans hs))

/-- READY is left, and its tables are lost, only by RESET (R206, R208). -/
theorem of_ready (h : RegistryStep s t) {tables : List Table} (hs : s.registry = .ready tables) :
    t.registry = .ready tables ∨ ResetNext s := by
  cases h with
  | reset hr => exact .inr hr
  | accepted _ _ hs' => cases hs.symm.trans hs'
  | built _ _ hs' => cases hs.symm.trans hs'
  | kept ht => exact .inl (ht.trans hs)

/-- UNINITIALIZED is returned to only by RESET (R208). -/
theorem to_uninitialized (h : RegistryStep s t) (ht : t.registry = .uninitialized) :
    s.registry = .uninitialized ∨ ResetNext s := by
  cases h with
  | reset hr => exact .inr hr
  | accepted _ _ hs => exact .inl hs
  | built _ _ _ ht' => cases ht.symm.trans ht'
  | kept ht' => exact .inl (ht'.symm.trans ht)

end RegistryStep

/-- No step changes the parameters of R9 (R206). -/
theorem step_hw {s t : State} (h : step s = .next t) : t.hw = s.hw := by
  cases step_cases h with
  | reset | access | statusWrite | idle => rfl
  | cmdWrite c => exact writeCmd_hw c (popped s)
  | completed _ _ _ ht =>
    obtain ⟨hw, -⟩ := complete_fields ht
    exact hw

end Sys2Proof.Machine

section

open Sys2Proof Sys2Proof.Machine

/-- Settles O34: BUILD is the build and OK; the tables are R209's, one an entry of the catalog. -/
theorem buildMakesTheCatalogReady : Obligations.BuildMakesTheCatalogReady := by
  intro s
  have hexec : exec .build s = finish .ok (buildIfDue s) := rfl
  refine ⟨fun hr => ⟨catalogTables s.hw.catalog, ?_, catalogTables_length _, fun i p hp => ?_⟩, fun hr => ?_⟩
  · rw [hexec, buildIfDue_eq, hr, builtRegistry_building, finish_eq]
  · rw [catalogTables_getElem?, hp, Option.map_some]
  · rw [hexec, buildIfDue_of_not_building s hr, finish_eq]

/-- Settles O35: the query name is the name operand (R207), and the catalog is searched from its lowest entry. -/
theorem lookupPreFindsTheName : Obligations.LookupPreFindsTheName := by
  intro s
  have hexec : exec .lookupPre s =
      lookupBy (fun q => (catalogMatch s.hw.catalog q).map (0x80 + ·)) (buildIfDue s) := rfl
  simp only [hexec, nameMatches_iff]
  refine ⟨fun hn => lookupBy_nameRange (by simpa using hn), fun hn => ⟨fun i p hp hq hlow => ?_, fun hnone => ?_⟩⟩
  · have hf := catalogMatch_eq_some hp hq hlow
    exact lookupBy_finds (by simpa using hn) (by simp [hf])
  · have hf := catalogMatch_eq_none hnone
    exact lookupBy_findsNone (by simpa using hn) (by simp [hf])

/-- Settles O36: the query name is the name operand (R207), and the slots are searched from slot 0. -/
theorem lookupListFindsTheLowestSlot : Obligations.LookupListFindsTheLowestSlot := by
  intro s
  have hexec : exec .lookupList s = lookupBy (slotMatch s) (buildIfDue s) := rfl
  simp only [hexec, nameMatches_iff]
  refine ⟨fun hn => lookupBy_nameRange (by simpa using hn), fun hn => ⟨fun k hk hlow => ?_, fun hnone => ?_⟩⟩
  · have hf : slotMatch s (nameOperand s) = some k.toNat := slotMatch_eq_some hk hlow
    rw [← foundResult_slot]
    exact lookupBy_finds (by simpa using hn) (by simpa using hf)
  · have hf : slotMatch s (nameOperand s) = none := slotMatch_eq_none hnone
    exact lookupBy_findsNone (by simpa using hn) (by simpa using hf)

/-- Settles O50: by what a step does to the registry; that BUILDING comes with its pending word is the invariant. -/
theorem regstateTransitions : Obligations.RegstateTransitions := by
  intro s t hi h
  have hstep := step_registry h
  simp only [ne_eq, regstate_eq_uninitialized, regstate_eq_building, regstate_eq_ready]
  refine ⟨?_, fun hs ht => (hstep.of_uninitialized hs).resolve_left ht, fun hs hb hc => ?_, fun hs ht hr => ?_,
    fun hs he => ?_, fun ⟨tables, hs⟩ hr => ⟨tables, (hstep.of_ready hs).resolve_right hr⟩,
    fun hs ht => (hstep.to_uninitialized ht).resolve_left hs⟩
  · cases t.registry <;> simp
  · rcases hc with hc | hc <;> rw [registry_of_cmdWrite h hc hb, hs] <;> rfl
  · obtain ⟨hready, hb, he⟩ := ((hstep.of_building hs).resolve_left hr).resolve_left ht
    exact ⟨hready, hb, he, (triggersBuild_iff _).1 (hi.buildingBusy hs).2⟩
  · exact ⟨catalogTables s.hw.catalog, by rw [hi.registry_of_engineNext h he, hs, builtRegistry_building]⟩

/-- Settles O51: of the steps only RESET writes a READY registry. -/
theorem readyCatalogIsImmutable : Obligations.ReadyCatalogIsImmutable :=
  fun _ _ h => ⟨step_hw h, fun _ hs => (step_registry h).of_ready hs⟩

end

/-! ## What an error changes, and the ENGINE when idle -/

namespace Sys2Proof.Machine

open Sys2Proof

/-! ### The ENGINE's turn -/

theorem engineTurn_of_pending {s : State} (hb : s.busy = true) : engineTurn s = complete s :=
  if_pos hb

theorem engineTurn_of_idle {s : State} (hb : s.busy = false) : engineTurn s = .next s :=
  if_neg (by simp [hb])

/-! ### Every completion ends, and with which code -/

/-- However a command ends, it ends in a next state (R230). -/
theorem Completion.exists_next {i : Instr} {s : State} {o : Outcome} (hc : Completion i s o) : ∃ t, o = .next t := by
  cases hc <;> exact ⟨_, rfl⟩

theorem complete_exists_next (s : State) : ∃ t, complete s = .next t := by
  rcases complete_cases s with ⟨e, -, hr⟩ | ⟨i, -, -, hc⟩
  · exact ⟨_, hr⟩
  · exact hc.exists_next

/-- A legal command never ends with ILLEGAL_COMMAND (R98). -/
theorem Completion.err_ne_illegalCommand {i : Instr} {s t : State} (hc : Completion i s (.next t))
    (hwf : i.wf = true) : t.err ≠ .illegalCommand := by
  cases hc with
  | illegal h => simp [hwf] at h
  | error c h => exact h.2.2
  | result v c h => rcases h with rfl | rfl <;> nofun
  | filled | freed | done => nofun

/-- ILLEGAL_COMMAND is the code of exactly the words the decoder refuses (R93, R98). -/
theorem complete_err_eq_illegalCommand_iff {s t : State} (ht : complete s = .next t) :
    t.err = .illegalCommand ↔ ∃ e, decode s.pend.cmd = .error e := by
  rcases complete_cases s with ⟨e, hd, hr⟩ | ⟨i, hd, -, hc⟩
  · cases hr.symm.trans ht
    exact ⟨fun _ => ⟨e, hd⟩, fun _ => rfl⟩
  · have hne : t.err ≠ .illegalCommand := (ht ▸ hc : Completion i s (.next t)).err_ne_illegalCommand (decode_wf hd)
    simp [hne, hd]

/-! ### The frame of an error (R234) -/

/-- A command that ends with an error touches no slot: beyond ERR and BUSY only RESULT and the registry may differ. -/
theorem Completion.frame_of_error {i : Instr} {s t : State} (hc : Completion i s (.next t)) (herr : t.err ≠ .ok) :
    t = { s with err := t.err, busy := false, result := t.result, registry := t.registry } := by
  cases hc with
  | illegal => rfl
  | error | result => simp only [buildIfDue_eq]
  | filled | freed | done => exact absurd rfl herr

theorem complete_frame_of_error {s t : State} (ht : complete s = .next t) (herr : t.err ≠ .ok) :
    t = { s with err := t.err, busy := false, result := t.result, registry := t.registry } := by
  rcases complete_cases s with ⟨e, -, hr⟩ | ⟨i, -, -, hc⟩
  · cases hr.symm.trans ht
    rfl
  · exact (ht ▸ hc : Completion i s (.next t)).frame_of_error herr

/-- The one error of a lookup is NAME_RANGE (R212, R215). -/
theorem lookupBy_err_eq_nameRange {search : List Byte → Option Nat} {s t : State} (h : lookupBy search s = .next t)
    (herr : t.err ≠ .ok) : t.err = .nameRange := by
  by_cases hn : s.hw.nameMax < s.pend.args.nameLen.toNat
  · cases (lookupBy_nameRange hn).symm.trans h
    rfl
  · refine absurd ?_ herr
    cases hf : search (nameOperand s) with
    | none =>
      cases (lookupBy_findsNone (Nat.le_of_not_lt hn) hf).symm.trans h
      rfl
    | some n =>
      cases (lookupBy_finds (Nat.le_of_not_lt hn) hf).symm.trans h
      rfl

/-- A completion that changes the registry ran the build, which was due (R96, R209). -/
theorem complete_registry_of_ne {s t : State} (ht : complete s = .next t) (hne : t.registry ≠ s.registry) :
    s.registry = .building ∧ t.registry = .ready (catalogTables s.hw.catalog) := by
  have hbuilt : t.registry = builtRegistry s.hw s.registry :=
    (complete_registry ht).resolve_right fun ⟨hkept, _⟩ => hne hkept
  have hr : s.registry = .building := by_contra fun hr => hne (hbuilt.trans (builtRegistry_of_ne_building hr))
  exact ⟨hr, by rw [hbuilt, hr, builtRegistry_building]⟩

/-- Of the two words that trigger the build BUILD never fails, and LOOKUP_PRE only with NAME_RANGE (R210, R212). -/
theorem complete_err_of_triggersBuild {s t : State} (ht : complete s = .next t)
    (htrig : triggersBuild s.pend.cmd = true) (herr : t.err ≠ .ok) :
    s.pend.cmd = 0x00000006 ∧ t.err = .nameRange := by
  rcases (triggersBuild_iff _).1 htrig with hcmd | hcmd
  · rw [complete_of_decode (i := .lookupPre) (by rw [hcmd]; rfl)] at ht
    have hlookup : execLookupPre s = .next t := ht
    rw [execLookupPre] at hlookup
    exact ⟨hcmd, lookupBy_err_eq_nameRange hlookup herr⟩
  · rw [complete_of_decode (i := .build) (by rw [hcmd]; rfl)] at ht
    cases ht
    exact absurd rfl herr

end Sys2Proof.Machine

section

open Sys2Proof Sys2Proof.Machine

/-- Settles O22: an illegal word raises ILLEGAL_COMMAND, and none of the ends of a legal command has that code. -/
theorem everyCommandEndsInAStatusCode : Obligations.EveryCommandEndsInAStatusCode := by
  intro s hb
  obtain ⟨t, ht⟩ := complete_exists_next s
  exact ⟨t, (engineTurn_of_pending hb).trans ht, complete_busy ht,
    (complete_err_eq_illegalCommand_iff ht).trans (illegalWord_iff_decode_eq_error _).symm⟩

/-- Settles O25: the ends with an error write no slot, and RESULT only with CHECK_MISMATCH; the registry changes only by
a due build, which by the invariant came of the pending word. -/
theorem errorsChangeNothingElse : Obligations.ErrorsChangeNothingElse := by
  intro s t hi hb h herr
  have ht : complete s = .next t := (engineTurn_of_pending hb).symm.trans h
  refine ⟨complete_frame_of_error ht herr, fun hmis => ?_, fun hne => ?_⟩
  · exact by_contra fun hres => (complete_err_of_result_ne ht hres).elim herr hmis
  · obtain ⟨hbuilding, hready⟩ := complete_registry_of_ne ht hne
    obtain ⟨hcmd, hcode⟩ := complete_err_of_triggersBuild ht (hi.buildingBusy hbuilding).2 herr
    exact ⟨hcmd, hcode, hready⟩

/-- Settles O57: without a pending command the ENGINE's turn leaves the state as it is. -/
theorem idleEngineDoesNothing : Obligations.IdleEngineDoesNothing :=
  fun s hb he => (step_of_engineTurn he).trans (engineTurn_of_idle (s := popped s) hb)

end

/-! ## Reset, and what disturbs a pending command -/

namespace Sys2Proof.Machine

open Sys2Proof

/-! ### Bytes written under a pending command -/

/-- Under a pending command a written byte counts as written since its acceptance (R266). -/
theorem mem_raced_writeBufferByte {s : State} (hb : s.busy = true) (off : Nat) (b : Byte) :
    off ∈ (writeBufferByte off b s).raced := by
  rw [writeBufferByte_raced, if_pos hb, mem_insertRising]
  exact .inl rfl

/-- A written byte changes for no other byte whether it was written since the acceptance (R266). -/
theorem mem_raced_writeBufferByte_of_ne {off off' : Nat} (hne : off' ≠ off) (b : Byte) (s : State) :
    off' ∈ (writeBufferByte off b s).raced ↔ off' ∈ s.raced := by
  rw [writeBufferByte_raced]
  split
  · rw [mem_insertRising, or_iff_right hne]
  · rfl

/-- The command sees every byte but the written one as before (R266). -/
theorem commandByte_writeBufferByte_of_ne {off off' : Nat} (hne : off' ≠ off) (b : Byte) (s : State) :
    commandByte (writeBufferByte off b s) off' = commandByte s off' :=
  commandByte_eq (mem_raced_writeBufferByte_of_ne hne b s) (by rw [bufferByte_writeBufferByte, if_neg hne]) rfl

/-- A byte not written since the acceptance is seen as it stands (R266). -/
theorem commandByte_of_not_raced {s : State} {off : Nat} (h : off ∉ s.raced) :
    commandByte s off = bufferByte s off := by
  simp [commandByte, h]

/-! ### Bytes nothing has written -/

theorem Memory.read_eq_none {m : List Host.Cell} {a : Nat} (h : ∀ b, (a, b) ∉ m) : Memory.read m a = none := by
  induction m with
  | nil => rfl
  | cons c m ih =>
    have hne : c.1 ≠ a := fun e => h c.2 (e ▸ List.mem_cons_self)
    rw [Memory.read, if_neg hne]
    exact ih fun b hb => h b (List.mem_cons_of_mem c hb)

/-- A byte nothing has written stands as a free value (R263). -/
theorem bufferByte_of_unwritten {s : State} {off : Nat} (h : ∀ b, (off, b) ∉ s.mem) :
    bufferByte s off = Config.unwrittenByte s.epoch off := by
  rw [bufferByte, Memory.read_eq_none h, Option.getD_none]

/-! ### The reset state -/

/-- Every register but HWCFG is reset to 0 (R260). -/
theorem readReg_resetOf {g : Reg} (hg : g ≠ .hwcfg) (hw : HwConfig) : readReg g (State.resetOf hw) = 0 := by
  cases g with
  | hwcfg => exact absurd rfl hg
  | status => exact statusWord_resetOf hw
  | cmd | result | regIn | argCfg | argPoly | argInit | argXorout | argCheck | dataAddr | dataLen | nameLen
  | slotMask => rfl

/-- RESET resets the registers of the instance, whatever was pending (R260, R261). -/
theorem readReg_assertReset (g : Reg) (s : State) : readReg g (assertReset s) = readReg g (State.resetOf s.hw) := by
  cases g <;> rfl

/-- A conforming instance in its reset state: no byte is written, no slot is valid, no registry is built or due. -/
theorem Inv.resetOf {hw : HwConfig} (h : hw.conforming = true) : Inv (State.resetOf hw) where
  conforming := h
  memoryForm := Memory.wf_nil
  memoryPlaces := nofun
  racedPlaces := nofun
  slotsExist := by simp
  slotsOk := by simp
  tablesBuilt := nofun
  buildingBusy := nofun

/-- The spec's defaults and the required catalog meet R9, R203 and R205; the self-checks compute. -/
theorem conforming_exampleInstance : Config.exampleInstance.conforming = true := by
  decide +kernel

end Sys2Proof.Machine

section

open Sys2Proof Sys2Proof.Machine

/-- Settles O53: the buffers are of the HOST's side, and no byte the command reads is the written one. -/
theorem bufferWritesElsewhereAreHarmless : Obligations.BufferWritesElsewhereAreHarmless := by
  intro i s t off b hnot h
  have hread : ∀ off', ReadsByte i s off' → commandByte (writeBufferByte off b s) off' = commandByte s off' :=
    fun off' hr =>
      have hne : off' ≠ off := fun e => hnot (e ▸ hr)
      commandByte_writeBufferByte_of_ne hne b s
  have hexec := exec_withHostSide s.args (writeBufferByte off b s).mem (writeBufferByte off b s).raced hread
  have hc : Completion i s (.next t) := h ▸ exec_completion i s
  obtain ⟨-, -, hargs, -⟩ := hc.fields
  rw [h, mapNext, withHostSide, withHostSide, ← hargs] at hexec
  rw [← hexec, hargs]
  rfl

/-- Settles O9: with BUSY = 1 the command port sets OVERRUN alone. -/
theorem cmdWriteWhileBusyIsDropped : Obligations.CmdWriteWhileBusyIsDropped := by
  intro s c hc hb
  rw [step_of_cmdWrite hc, writeCmd_of_busy c (by simpa using hb)]

/-- Settles O23: on the ENGINE's turn the step is the completion, which gives a next state whatever the word. -/
theorem pendingCommandCompletes : Obligations.PendingCommandCompletes := by
  intro s hb he
  obtain ⟨t, ht⟩ := complete_exists_next (popped s)
  obtain ⟨-, -, -, -, -, -, -, -, hinputs, -⟩ := complete_fields ht
  exact ⟨t, (step_of_pending he hb).trans ht, complete_busy ht, hinputs⟩

/-- Settles O48: the reset state holds nothing but its instance, and the example instance conforms. -/
theorem resetMeetsTheInvariant : Obligations.ResetMeetsTheInvariant :=
  ⟨fun _ h => Inv.resetOf h, Inv.resetOf conforming_exampleInstance⟩

/-- Settles O54: by whether the byte was written since the acceptance, and whether it was written at all. -/
theorem unstableBytesAreFreeValues : Obligations.UnstableBytesAreFreeValues := by
  refine ⟨fun s off b hb => ?_, fun s off h => commandByte_of_not_raced h, fun c s off => ?_,
    fun s off h => bufferByte_of_unwritten h⟩
  · exact commandByte_of_raced (mem_raced_writeBufferByte hb off b)
  · rw [commandByte_of_not_raced (by simp)]
    exact bufferByte_congr rfl rfl off

/-- Settles O55: RESET's next state is the instance's reset state but for the model's own counters and the HOST's later
accesses. -/
theorem resetClearsTheMachine : Obligations.ResetClearsTheMachine := by
  intro s hr
  refine ⟨_, step_of_resetNext hr, rfl, statusWord_resetOf s.hw, rfl, rfl, fun r hmem => ?_, slotAt_assertReset _, rfl,
    Memory.read_nil, rfl⟩
  obtain ⟨g, hoff, hmask⟩ := argumentRegisters_reg hmem
  rw [hoff, readAt_whole, readReg_assertReset, readReg_resetOf (by rintro rfl; cases hmask)]

/-- Settles O56: the thirteen offsets are those of the registers before HWCFG; HWCFG's value computes. -/
theorem resetRegistersRead : Obligations.ResetRegistersRead := by
  refine ⟨?_, (readAt_whole .hwcfg State.reset).trans (by decide)⟩
  change ∀ off ∈ [Reg.status, .cmd, .result, .regIn, .argCfg, .argPoly, .argInit, .argXorout, .argCheck, .dataAddr,
    .dataLen, .nameLen, .slotMask].map Reg.offset, readAt off 8 State.reset = 0
  refine List.forall_mem_map.2 fun g hg => ?_
  rw [readAt_whole, State.reset, readReg_resetOf (by rintro rfl; simp at hg)]

end
